-- ==== Sys2Proof/Word.lean ====
section
/-! DEFINITION. The word types of des_core and nothing else: a byte, a block, a half-block, a subkey, a half of the key,
and the key schedule of sixteen subkeys. Widths are those the spec fixes (00_scope.md rule R7). -/

namespace Sys2Proof

/-- A byte of a buffer: 8 bits (20_memory.md rule R50). -/
abbrev Byte := BitVec 8

/-- A block, and the key register: 64 bits (00_scope.md rule R7). -/
abbrev Block := BitVec 64

/-- A half-block: 32 bits (00_scope.md rule R7). -/
abbrev Half := BitVec 32

/-- A round subkey: 48 bits (00_scope.md rule R7). -/
abbrev Subkey := BitVec 48

/-- A half of the parity-dropped key: 28 bits (00_scope.md rule R7). -/
abbrev KeyHalf := BitVec 28

/-- The RoundKeySchedule: exactly sixteen subkeys, entry `i` the subkey of round `i` (10_state.md rule R31). -/
abbrev Schedule := Vector Subkey 16

end Sys2Proof
end

