-- ==== Sys2Proof/Syntax.lean ====
section
/-! DEFINITION. The six commands of des_core, one constructor per row of spec/opcode_table.json (30_encoding.md rule
R72). A command carries no operand in its word (rules R70 and R75), so no constructor has an argument. -/

namespace Sys2Proof

/-- A command, selected by the 8-bit value a host writes to `CMD`. -/
inductive Instr where
  /-- `KSCHED`: derive the round keys of `KEY` (41_key_schedule.md rule R106). -/
  | ksched
  /-- `ROUNDF`: run the round function once on `RIN` and `SKIN` (42_round_function.md rule R126). -/
  | roundf
  /-- `DECBLK`: decrypt `DIN` with the current round keys (43_block_cipher.md rule R148). -/
  | decblk
  /-- `ENCBLK`: encrypt `DIN` with the current round keys (43_block_cipher.md rule R147). -/
  | encblk
  /-- `ECBDEC`: decrypt the buffer (44_ecb_framer.md rule R163). -/
  | ecbdec
  /-- `ECBENC`: encrypt the buffer (44_ecb_framer.md rule R162). -/
  | ecbenc
deriving DecidableEq, Repr

end Sys2Proof
end

