-- ==== Sys2Proof/WellFormed.lean ====
section
/-! DEFINITION. The format `CMD8` and when its fields are well formed (30_encoding.md rules R71 and R74): three checks,
one per field. `Instr.wellFormed` asks them of the fields the format gives a command. -/

namespace Sys2Proof

/-- The three fields of the command word (30_encoding.md rule R71). -/
structure Cmd8 where
  /-- Bits 7:4, must be `0000`. -/
  zero : BitVec 4
  /-- Bits 3:1, the unit selector. -/
  op : BitVec 3
  /-- Bit 0, the mode: 1 encrypt, 0 decrypt. -/
  m : BitVec 1
deriving DecidableEq, Repr

/-- Check 1: the `zero` field is `0000` (30_encoding.md rule R71). -/
def Cmd8.zeroOk (f : Cmd8) : Bool := f.zero == 0

/-- Check 2: the unit selector is one of `001`, `010`, `011`, `100`; `000`, `101`, `110`, `111` are reserved (rule R71). -/
def Cmd8.opOk (f : Cmd8) : Bool := f.op == 1 || f.op == 2 || f.op == 3 || f.op == 4

/-- Check 3: the mode bit is 0 for the key schedule and the round function (30_encoding.md rule R71). -/
def Cmd8.modeOk (f : Cmd8) : Bool := f.m == 0 || !(f.op == 1 || f.op == 2)

/-- The fields select an operation: all three checks hold (30_encoding.md rule R74). -/
def Cmd8.wellFormed (f : Cmd8) : Bool := f.zeroOk && f.opOk && f.modeOk

/-- The unit and the mode of each command (30_encoding.md rules R71 and R73). -/
def Instr.fields : Instr → Cmd8
  | .ksched => ⟨0, 1, 0⟩
  | .roundf => ⟨0, 2, 0⟩
  | .decblk => ⟨0, 3, 0⟩
  | .encblk => ⟨0, 3, 1⟩
  | .ecbdec => ⟨0, 4, 0⟩
  | .ecbenc => ⟨0, 4, 1⟩

/-- A command is well formed when its fields are. -/
def Instr.wellFormed (i : Instr) : Bool := i.fields.wellFormed

end Sys2Proof
end

