-- ==== Sys2Proof/Decode.lean ====
section
/-! DEFINITION. The decoder, total on every value of `CMD` and rejecting a reserved one by name (30_encoding.md rule R79),
and after it the encoder, written from the opcode map (rule R72). -/

namespace Sys2Proof

/-- Why a word is no command. -/
inductive DecodeError where
  /-- `RESERVED(w)` of 30_encoding.md rule R79: the word selects no operation. -/
  | reserved (w : BitVec 8)
deriving DecidableEq, Repr

/-- The fields of a command word: bits 7:4, 3:1 and 0 (30_encoding.md rule R71). -/
def fieldsOf (w : BitVec 8) : Cmd8 :=
  ⟨w.extractLsb' 4 4, w.extractLsb' 1 3, w.extractLsb' 0 1⟩

/-- The command a unit selector and a mode bit stand for, if any (30_encoding.md rules R71 and R73). -/
def select (op m : Nat) : Option Instr :=
  match op, m with
  | 1, 0 => some .ksched
  | 2, 0 => some .roundf
  | 3, 0 => some .decblk
  | 3, 1 => some .encblk
  | 4, 0 => some .ecbdec
  | 4, 1 => some .ecbenc
  | _, _ => none

/-- Decode the value a host writes to `CMD` (30_encoding.md rules R74 and R79). -/
def decode (w : BitVec 8) : Except DecodeError Instr :=
  let f := fieldsOf w
  if f.zeroOk then
    match select f.op.toNat f.m.toNat with
    | some i => .ok i
    | none => .error (.reserved w)
  else .error (.reserved w)

/-- The word of a command: the exact values of the opcode map (30_encoding.md rule R72). -/
def encode : Instr → BitVec 8
  | .ksched => 0x02#8
  | .roundf => 0x04#8
  | .decblk => 0x06#8
  | .encblk => 0x07#8
  | .ecbdec => 0x08#8
  | .ecbenc => 0x09#8

/-- The one byte an instruction of `nbits` bits `w` is written as: bit 0 of `w` is bit 0 of the byte, and every bit above
`nbits` is 0. -/
def tableByte (nbits w : Nat) : BitVec 8 := BitVec.ofNat 8 (w % 2 ^ nbits)

/-- The instruction the decoder reads from the bits `w` of an opcode-table row. -/
def decodeTableWord (nbits w : Nat) : Option Instr :=
  match decode (tableByte nbits w) with
  | .ok i => some i
  | .error _ => none

end Sys2Proof
end

