-- ==== Sys2Proof/Config.lean ====
section
/-! DEFINITION. What the spec leaves to the implementation, as constants with no body: the buffer capacity `BUFMAX`
(00_scope.md rule R8) and the free values a host reads from a register or a byte that nothing has written
(10_state.md rule R37). Nothing in Lean can evaluate one of them. -/

namespace Sys2Proof.Config

/-- How many blocks of 8 bytes a buffer holds BEYOND THE FIRST, or `none` for a buffer without bound. Counting blocks
from the first makes the two constraints of 00_scope.md rule R8 (a multiple of 8, at least 8) hold of every value. -/
opaque bufBlocks : Option Nat

/-- `BUFMAX`, the capacity in bytes of each of `IBUF` and `OBUF`; `none` is the spec's `unbounded` (00_scope.md rule R8). -/
def bufMax : Option Nat := bufBlocks.map fun k => 8 * (k + 1)

/-- The free value the host receives from its read number `draw` of an unwritten register (10_state.md rule R37). -/
opaque freeRegister : (draw : Nat) → BitVec 64

/-- The free value the host receives for the byte at `offset` in its read number `draw`, where that byte is unwritten
(10_state.md rule R37). -/
opaque freeByte : (draw offset : Nat) → Byte

end Sys2Proof.Config
end

