-- ==== Sys2Proof/Machine/State.lean ====
section
/-! DEFINITION. The state of des_core as plain data (10_state.md rule R20), the host's accesses (30_encoding.md rule R77),
the reasons a step can stop, and the state after reset (70_reset_and_hazards.md rule R201). -/

namespace Sys2Proof.Machine

/-- Why the machine stops. -/
inductive Fault where
  /-- `NoSchedule` (60_exceptions.md rule R187): raised by `ENCBLK` and `DECBLK` when `STATUS.RKV = 0`. Safe: the spec
  gives no result, and no claim can be made about one. -/
  | noSchedule
  /-- `UnwrittenOperand` (60_exceptions.md rule R187): raised by a command that reads an operand register, or a byte of
  `IBUF[0..LEN-1]`, that nothing has written since reset. Safe: the spec gives no result. -/
  | unwrittenOperand
  /-- `Overlap` (60_exceptions.md rule R187): listed there so that the assumption is visible. Raised by nothing: commands
  are atomic steps, so no host access can overlap one. Unsafe: a host that overlaps is outside every claim (log 8). -/
  | overlap
  /-- A host access to an offset of a buffer at or above `BUFMAX`, where the spec says no byte exists (20_memory.md rules
  R51 and R52): raised by the host's buffer reads and writes. Safe: the model stops (log 7). -/
  | outsideBuffer
deriving DecidableEq, Repr

/-- Why a step has no meaning. -/
inductive Refusal where
  /-- An instruction that exec rejects by name. Raised by nothing: every instruction has its meaning. Safe. -/
  | notModelled (mnemonic : String)
deriving DecidableEq, Repr

/-- A data register and its written mark (10_state.md rule R37). While the mark is off no command and no host read sees
`val`. -/
structure Marked (w : Nat) where
  /-- The register's bits. -/
  val : BitVec w
  /-- The written mark. -/
  written : Bool
deriving DecidableEq, Repr

/-- A buffer: the bytes that have been written, as (offset, byte) pairs with strictly rising offsets. An offset that is
not listed is unwritten (10_state.md rule R37). -/
abbrev Memory := List Host.Cell

/-- The canonical form: strictly rising offsets. An unlisted offset reads as no value, so no entry can equal it. -/
def Memory.wf (m : Memory) : Bool := decide (m.Pairwise fun a b => a.1 < b.1)

/-- The registers by the names and indices of 10_state.md rule R20. -/
inductive RegName where
  | cmd | status | key | din | dout | rin | skin | fout | len | fctl
  /-- Reserved indices 10 to 15. -/
  | reserved (i : Fin 6)
  /-- `RK[i]`. -/
  | rk (i : Fin 16)
deriving DecidableEq, Repr

/-- The width of a register (10_state.md rule R20). A reserved index has none: 64 bits are written there, and ignored. -/
@[reducible] def RegName.width : RegName → Nat
  | .cmd => 8
  | .status => 8
  | .key => 64
  | .din => 64
  | .dout => 64
  | .rin => 32
  | .skin => 48
  | .fout => 32
  | .len => 32
  | .fctl => 16
  | .reserved _ => 64
  | .rk _ => 48

/-- The index of a register in host notation (10_state.md rule R20). -/
def RegName.index : RegName → Nat
  | .cmd => 0
  | .status => 1
  | .key => 2
  | .din => 3
  | .dout => 4
  | .rin => 5
  | .skin => 6
  | .fout => 7
  | .len => 8
  | .fctl => 9
  | .reserved i => 10 + i
  | .rk i => 16 + i

/-- The two buffers (20_memory.md rules R51 and R52). -/
inductive BufName where
  | ibuf | obuf
deriving DecidableEq, Repr

/-- One access of the host, atomic (20_memory.md rule R60), in the notation of 30_encoding.md rule R77. -/
inductive Access where
  /-- `wr REG, value`: a write of the register's full width. A write of `CMD` issues a command. -/
  | wr (r : RegName) (v : BitVec r.width)
  /-- `rd REG`. -/
  | rd (r : RegName)
  /-- `wrm BUF, off, b0 b1 ...`. -/
  | wrm (b : BufName) (off : Nat) (bs : List Byte)
  /-- `rdm BUF, off, n`. -/
  | rdm (b : BufName) (off n : Nat)
  /-- The reset event (70_reset_and_hazards.md rule R200). -/
  | reset
deriving DecidableEq, Repr

/-- What a read of the host returned. -/
inductive Reading where
  | reg (r : RegName) (v : BitVec r.width)
  | bytes (b : BufName) (off : Nat) (bs : List Byte)
deriving DecidableEq, Repr

/-- The whole state: what the spec gives the machine, and, last, the model's own record of the host. -/
structure State where
  /-- `STATUS`: `ERR` bit 0, `RKV` bit 1, the rest reserved (10_state.md rule R22). -/
  status : BitVec 8
  /-- `LEN` (10_state.md rule R29). -/
  len : BitVec 32
  /-- `FCTL`: `KLEN` bits 7:0, `DPRES` bit 8, the rest reserved (10_state.md rule R30). -/
  fctl : BitVec 16
  /-- `KEY` (10_state.md rule R23). -/
  key : Marked 64
  /-- `DIN` (10_state.md rule R24). -/
  din : Marked 64
  /-- `DOUT` (10_state.md rule R25). -/
  dout : Marked 64
  /-- `RIN` (10_state.md rule R26). -/
  rin : Marked 32
  /-- `SKIN` (10_state.md rule R27). -/
  skin : Marked 48
  /-- `FOUT` (10_state.md rule R28). -/
  fout : Marked 32
  /-- `RK[0..15]` (10_state.md rule R31); their written mark is `STATUS.RKV` (rule R37). -/
  rk : Schedule
  /-- `IBUF` (20_memory.md rule R51). -/
  ibuf : Memory
  /-- `OBUF` (20_memory.md rule R52). -/
  obuf : Memory
  /-- THE MODEL'S OWN: the host's accesses not yet performed, oldest first (log 3). -/
  pending : List Access
  /-- THE MODEL'S OWN: what the host's reads returned, newest first (log 3). -/
  seen : List Reading
  /-- THE MODEL'S OWN: how many reads the host has made, which indexes the free values (log 4). -/
  draws : Nat
deriving DecidableEq, Repr

/-- A register that nothing has written since reset. Its value is a DESIGN CHOICE, 0 (log 1). -/
def Marked.unwritten (w : Nat) : Marked w := ⟨0, false⟩

/-- The state after reset (70_reset_and_hazards.md rule R201), with no access of the host pending. -/
def State.reset : State where
  status := 0x00
  len := 0x00000000
  fctl := 0x0000
  key := Marked.unwritten 64
  din := Marked.unwritten 64
  dout := Marked.unwritten 64
  rin := Marked.unwritten 32
  skin := Marked.unwritten 48
  fout := Marked.unwritten 32
  rk := Vector.replicate 16 0
  ibuf := []
  obuf := []
  pending := []
  seen := []
  draws := 0

end Sys2Proof.Machine
end

