-- ==== Sys2Proof/Machine/Flags.lean ====
section
/-! DEFINITION. The fields of the control registers: `STATUS.ERR` and `STATUS.RKV`, the only flags of the hardware
(10_state.md rule R22), and `FCTL.KLEN` and `FCTL.DPRES` (rule R30). -/

namespace Sys2Proof.Machine

/-- `STATUS.ERR`: 0 is `Success`, 1 is `InvalidInput` (10_state.md rule R22). -/
def statusErr (s : State) : Bool := s.status.getLsbD 0

/-- `STATUS.RKV`: the round keys are valid, and the written mark of `RK[0..15]` (10_state.md rules R22 and R37). -/
def statusRkv (s : State) : Bool := s.status.getLsbD 1

/-- `STATUS.ERR <- e`, every other bit of `STATUS` kept. -/
def withErr (e : Bool) (v : BitVec 8) : BitVec 8 := (v &&& 0xFE#8) ||| (if e then 0x01#8 else 0x00#8)

/-- `STATUS.RKV <- 1`, every other bit of `STATUS` kept. -/
def withRkv (v : BitVec 8) : BitVec 8 := v ||| 0x02#8

/-- The bits of `STATUS` that are not reserved; a reserved field reads as 0 (10_state.md rules R22 and R36). -/
def statusMask : BitVec 8 := 0x03#8

/-- The bits of `FCTL` that are not reserved; written reserved bits are ignored (10_state.md rules R30 and R36). -/
def fctlMask : BitVec 16 := 0x01FF#16

/-- `FCTL.KLEN`, bits 7:0 (10_state.md rule R30). -/
def fctlKlen (s : State) : BitVec 8 := s.fctl.extractLsb' 0 8

/-- `FCTL.DPRES`, bit 8 (10_state.md rule R30). -/
def fctlDpres (s : State) : Bool := s.fctl.getLsbD 8

end Sys2Proof.Machine
end

