-- ==== Sys2Proof/Machine/Ops.lean ====
section
/-! DEFINITION. The named operations over registers and buffers, and taking the one exception `InvalidInput`
(60_exceptions.md rule R183). There is no return from it: nothing is saved and nothing is restored (rule R184). -/

namespace Sys2Proof.Machine

/-- A register holding a written value: a write marks its target written (10_state.md rule R37). -/
def markedWith {w : Nat} (v : BitVec w) : Marked w := ⟨v, true⟩

/-- Write `STATUS` whole. Only the core does. -/
def State.setStatus (s : State) (v : BitVec 8) : State := { s with status := v }
/-- Write `LEN` (10_state.md rule R29). -/
def State.setLen (s : State) (v : BitVec 32) : State := { s with len := v }
/-- Write `FCTL`; its reserved bits ignore the write and stay 0 (10_state.md rule R30). -/
def State.setFctl (s : State) (v : BitVec 16) : State := { s with fctl := v &&& fctlMask }
/-- Write `KEY` (10_state.md rule R23). -/
def State.setKey (s : State) (v : BitVec 64) : State := { s with key := markedWith v }
/-- Write `DIN` (10_state.md rule R24). -/
def State.setDin (s : State) (v : BitVec 64) : State := { s with din := markedWith v }
/-- Write `DOUT` (10_state.md rule R25). -/
def State.setDout (s : State) (v : BitVec 64) : State := { s with dout := markedWith v }
/-- Write `RIN` (10_state.md rule R26). -/
def State.setRin (s : State) (v : BitVec 32) : State := { s with rin := markedWith v }
/-- Write `SKIN` (10_state.md rule R27). -/
def State.setSkin (s : State) (v : BitVec 48) : State := { s with skin := markedWith v }
/-- Write `FOUT` (10_state.md rule R28). -/
def State.setFout (s : State) (v : BitVec 32) : State := { s with fout := markedWith v }
/-- Write all sixteen round keys together (10_state.md rule R31). -/
def State.setRk (s : State) (k : Schedule) : State := { s with rk := k }
/-- Replace `IBUF`. -/
def State.setIbuf (s : State) (m : Memory) : State := { s with ibuf := m }
/-- Replace `OBUF`. -/
def State.setObuf (s : State) (m : Memory) : State := { s with obuf := m }
/-- Replace the host's accesses still to come. -/
def State.setPending (s : State) (l : List Access) : State := { s with pending := l }
/-- Give the host the result of one read. -/
def State.addReading (s : State) (r : Reading) : State := { s with seen := r :: s.seen, draws := s.draws + 1 }

/-- End a command in `Success`: `STATUS.ERR <- 0` (00_scope.md rule R14). -/
def State.succeed (s : State) : State := s.setStatus (withErr false s.status)

/-- Take the exception: `STATUS.ERR <- 1` and nothing else (60_exceptions.md rule R183). -/
def State.raiseInvalidInput (s : State) : State := s.setStatus (withErr true s.status)

/-- The byte at an offset, or `none` where nothing has written it. -/
def Memory.read : Memory → Nat → Option Byte
  | [], _ => none
  | (a, v) :: rest, at_ => if a = at_ then some v else Memory.read rest at_

/-- Write one byte and mark it written, keeping the offsets strictly rising. -/
def Memory.write : Memory → Nat → Byte → Memory
  | [], at_, b => [(at_, b)]
  | (a, v) :: rest, at_, b =>
    if at_ < a then (at_, b) :: (a, v) :: rest
    else if at_ = a then (at_, b) :: rest
    else (a, v) :: Memory.write rest at_ b

/-- `MemRead(space, addr, n)`: the `n` bytes from `addr` up, or `none` if one of them is unwritten (00_scope.md rule R11). -/
def memRead (m : Memory) (addr : Nat) : Nat → Option (List Byte)
  | 0 => some []
  | n + 1 =>
    match m.read addr, memRead m (addr + 1) n with
    | some b, some bs => some (b :: bs)
    | _, _ => none

/-- `MemWrite(space, addr, n, v)`: write the bytes of `v` from `addr` up (00_scope.md rule R11). -/
def memWrite (m : Memory) (addr : Nat) : List Byte → Memory
  | [] => m
  | b :: bs => memWrite (m.write addr b) (addr + 1) bs

/-- `n <= BUFMAX`; every `n` where the buffers are unbounded (44_ecb_framer.md rule R160, V5). -/
def withinCapacity (n : Nat) : Bool :=
  match Config.bufMax with
  | none => true
  | some m => n ≤ m

/-- The `n` bytes from `off` up all exist in a buffer (20_memory.md rules R51 and R52). -/
def inBuffer (off n : Nat) : Bool := n == 0 || withinCapacity (off + n)

end Sys2Proof.Machine
end

