-- ==== Sys2Proof/Machine/Operands.lean ====
section
/-! DEFINITION. The operands a command can have: a data register with its written mark, the round-key file with its own,
and the bytes of `IBUF[0 .. LEN-1]` (30_encoding.md rule R75). A command that reads an unwritten operand faults
(10_state.md rule R37, 60_exceptions.md rule R187). -/

namespace Sys2Proof.Machine

/-- Read an operand register: `fault UnwrittenOperand` if it is unwritten, else go on with its value. -/
def needOperand {w : Nat} (r : Marked w) (go : BitVec w → Host.Outcome State Fault Refusal) :
    Host.Outcome State Fault Refusal :=
  if r.written then go r.val else .fault .unwrittenOperand

/-- Read the round-key file: `fault NoSchedule` if `STATUS.RKV = 0`, else go on with the sixteen subkeys
(43_block_cipher.md rule R150). -/
def needSchedule (s : State) (go : Schedule → Host.Outcome State Fault Refusal) : Host.Outcome State Fault Refusal :=
  if statusRkv s then go s.rk else .fault .noSchedule

/-- Read `IBUF[0 .. n-1]`: `fault UnwrittenOperand` if a byte of it is unwritten, else go on with the bytes. -/
def needData (m : Memory) (n : Nat) (go : List Byte → Host.Outcome State Fault Refusal) :
    Host.Outcome State Fault Refusal :=
  match memRead m 0 n with
  | some data => go data
  | none => .fault .unwrittenOperand

end Sys2Proof.Machine
end

