-- ==== Sys2Proof/Machine/BitVector.lean ====
section
/-! DEFINITION. The BitVector primitives every unit is built from (40_bitvector.md). A bit sequence of N positions is a
`BitVec N`: position 1 is the most significant bit (00_scope.md rules R9 and R10). -/

namespace Sys2Proof.Machine

/-- `s<p>`: the bit at 1-based position `p`, position 1 the most significant (00_scope.md rules R9 and R10). -/
def bitAt {N : Nat} (s : BitVec N) (p : Nat) : Bool := s.getMsbD (p - 1)

/-- A permutation or selection table from W positions to N: exactly N entries, each a position in 1..W. A table with an
entry out of range cannot be built, which is how the failure of 40_bitvector.md rule R92 is kept out (rule R93). -/
structure PermTable (W N : Nat) where
  /-- The entries in output order, 1-based. -/
  entries : List Nat
  /-- The declared output width is the number of entries (rule R93). -/
  length_eq : entries.length = N
  /-- No entry reads past the declared input width (rule R93). -/
  inRange : ∀ p ∈ entries, 1 ≤ p ∧ p ≤ W

/-- `applyTable(x, T)`: output position `i` is input position `T[i]` (40_bitvector.md rule R92). -/
def applyTable {W N : Nat} (x : BitVec W) (T : PermTable W N) : BitVec N :=
  BitVec.ofNat N (T.entries.foldl (fun acc p => 2 * acc + (bitAt x p).toNat) 0)

/-- `bytesToBits(B)` of N bytes: byte 0 supplies the most significant bits (40_bitvector.md rule R90). -/
def bytesToBits (N : Nat) (B : List Byte) : BitVec (8 * N) :=
  BitVec.ofNat (8 * N) (B.foldl (fun acc b => 256 * acc + b.toNat) 0)

/-- `bitsToBytes(s)`: byte `j` is bits `8(N-1-j)+7 : 8(N-1-j)` of the register view (40_bitvector.md rule R91). It is typed
on whole bytes only, so the length it is not defined for cannot be asked of it. -/
def bitsToBytes (N : Nat) (s : BitVec (8 * N)) : List Byte :=
  (List.range N).map fun j => s.extractLsb' (8 * (N - 1 - j)) 8

/-- `rol28(x, s)`: rotation toward position 1, the most significant end (40_bitvector.md rule R96). -/
def rol28 (x : KeyHalf) (s : Nat) : KeyHalf := x.rotateLeft s

/-- The first half, positions 1..H, of a sequence of 2H positions (40_bitvector.md rule R95). -/
def firstHalf (H : Nat) (s : BitVec (H + H)) : BitVec H := s.extractLsb' H H

/-- The second half, positions H+1..2H (40_bitvector.md rule R95). -/
def secondHalf (H : Nat) (s : BitVec (H + H)) : BitVec H := s.extractLsb' 0 H

/-- Group `g` of the 48-bit value: positions 6g+1 to 6g+6, register bits `47-6g : 42-6g` (40_bitvector.md rule R95). -/
def group (x : Subkey) (g : Nat) : BitVec 6 := x.extractLsb' (42 - 6 * g) 6

end Sys2Proof.Machine
end

