-- ==== Sys2Proof/Machine/RoundFunction.lean ====
section
/-! DEFINITION. The round function and the command `ROUNDF` (42_round_function.md). -/

namespace Sys2Proof.Machine

/-- The row a 6-bit group selects: `2*b0 + b5` (42_round_function.md rule R122). -/
def sboxRow (b : BitVec 6) : Nat := 2 * (bitAt b 1).toNat + (bitAt b 6).toNat

/-- The column a 6-bit group selects: `8*b1 + 4*b2 + 2*b3 + b4` (42_round_function.md rule R122). -/
def sboxColumn (b : BitVec 6) : Nat :=
  8 * (bitAt b 2).toNat + 4 * (bitAt b 3).toNat + 2 * (bitAt b 4).toNat + (bitAt b 5).toNat

/-- `S[g][row][column]` (42_round_function.md rule R121). Every index a command uses is in range (60_exceptions.md rule
R188). -/
def sboxEntry (g row column : Nat) : Nat := ((sboxes.getD g []).getD row []).getD column 0

/-- `v_g`: the 4 bits group `g` of `x` is replaced by, from S-box `g` (42_round_function.md rule R122). -/
def substituteGroup (x : Subkey) (g : Nat) : BitVec 4 :=
  BitVec.ofNat 4 (sboxEntry g (sboxRow (group x g)) (sboxColumn (group x g)))

/-- `v_0 ++ v_1 ++ ... ++ v_7` (42_round_function.md rule R124). -/
def substitute (x : Subkey) : Half :=
  substituteGroup x 0 ++ substituteGroup x 1 ++ substituteGroup x 2 ++ substituteGroup x 3 ++
    substituteGroup x 4 ++ substituteGroup x 5 ++ substituteGroup x 6 ++ substituteGroup x 7

/-- `F(r, k)`: expand, mix, substitute, permute (42_round_function.md rule R124). -/
def roundFn (r : Half) (k : Subkey) : Half := applyTable (substitute (applyTable r expansion ^^^ k)) straight

/-- `ROUNDF` (42_round_function.md rule R126). -/
def execRoundf (s : State) : Host.Outcome State Fault Refusal :=
  needOperand s.rin fun r => needOperand s.skin fun k => .next (s.setFout (roundFn r k)).succeed

end Sys2Proof.Machine
end

