-- ==== Sys2Proof/Machine/BlockCipher.lean ====
section
/-! DEFINITION. The block cipher and the commands `ENCBLK` and `DECBLK` (43_block_cipher.md). -/

namespace Sys2Proof.Machine

/-- One round: `L' = R`, `R' = L ^ F(R, k)` (43_block_cipher.md rule R143). -/
def feistelRound (h : Half × Half) (k : Subkey) : Half × Half := (h.2, h.1 ^^^ roundFn h.2 k)

/-- The subkeys in the order the rounds use them: forward to encrypt, reversed to decrypt (43_block_cipher.md rule R145). -/
def subkeyOrder (K : Schedule) (encrypt : Bool) : List Subkey := if encrypt then K.toList else K.toList.reverse

/-- `L_0`, `R_0`: the halves of the permuted input (43_block_cipher.md rule R144, steps 1 and 2). -/
def initialHalves (x : Block) : Half × Half :=
  (firstHalf 32 (applyTable x initialPerm), secondHalf 32 (applyTable x initialPerm))

/-- The right half first, then the final permutation (43_block_cipher.md rules R144 and R146). -/
def assemble (h : Half × Half) : Block := applyTable (h.2 ++ h.1) finalPerm

/-- `Crypt(x, K, m)`, `m` true to encrypt (43_block_cipher.md rule R144). -/
def crypt (x : Block) (K : Schedule) (encrypt : Bool) : Block :=
  assemble ((subkeyOrder K encrypt).foldl feistelRound (initialHalves x))

/-- `ENCBLK` and `DECBLK` are one operation with the mode as its parameter (30_encoding.md rule R73). -/
def cryptBlock (encrypt : Bool) (s : State) : Host.Outcome State Fault Refusal :=
  needSchedule s fun K => needOperand s.din fun x => .next (s.setDout (crypt x K encrypt)).succeed

/-- `ENCBLK` (43_block_cipher.md rule R147). -/
def execEncblk (s : State) : Host.Outcome State Fault Refusal := cryptBlock true s

/-- `DECBLK` (43_block_cipher.md rule R148). -/
def execDecblk (s : State) : Host.Outcome State Fault Refusal := cryptBlock false s

end Sys2Proof.Machine
end

