-- ==== Sys2Proof/Machine/KeySchedule.lean ====
section
/-! DEFINITION. The key schedule and the command `KSCHED` (41_key_schedule.md). -/

namespace Sys2Proof.Machine

/-- Steps (3) and (4) of the schedule for the rounds whose amounts are given: rotate the halves as the round before left
them, then compress (41_key_schedule.md rule R104). -/
def ksRounds : List Nat → KeyHalf → KeyHalf → List Subkey
  | [], _, _ => []
  | n :: rest, c, d =>
    applyTable (rol28 c n ++ rol28 d n) pc2 :: ksRounds rest (rol28 c n) (rol28 d n)

/-- One subkey for each round. -/
theorem ksRounds_length (l : List Nat) (c d : KeyHalf) : (ksRounds l c d).length = l.length := by
  induction l generalizing c d with
  | nil => rfl
  | cons n rest ih => simp [ksRounds, ih]

/-- `C_0`: the first half of the parity-dropped key (41_key_schedule.md rule R104, steps (1) and (2)). -/
def keyC (key : Block) : KeyHalf := firstHalf 28 (applyTable key pc1)

/-- `D_0`: the second half of the parity-dropped key. -/
def keyD (key : Block) : KeyHalf := secondHalf 28 (applyTable key pc1)

/-- `KS(key)`: the sixteen subkeys in encryption order (41_key_schedule.md rules R104 and R105). -/
def ks (key : Block) : Schedule :=
  ⟨(ksRounds shift (keyC key) (keyD key)).toArray, by rw [List.size_toArray, ksRounds_length]; rfl⟩

/-- `C_i`, `D_i`: the halves after the first `i` rounds of rotation (41_key_schedule.md rule R104). -/
def halvesAfter (key : Block) (i : Nat) : KeyHalf × KeyHalf :=
  (shift.take i).foldl (fun h n => (rol28 h.1 n, rol28 h.2 n)) (keyC key, keyD key)

/-- Derive the schedule of a key into `RK[0..15]` and set `STATUS.RKV` (41_key_schedule.md rule R106, 44_ecb_framer.md
rule R169). -/
def State.deriveRoundKeys (s : State) (key : Block) : State := (s.setRk (ks key)).setStatus (withRkv s.status)

/-- `KSCHED` (41_key_schedule.md rule R106). -/
def execKsched (s : State) : Host.Outcome State Fault Refusal :=
  needOperand s.key fun key => .next (s.deriveRoundKeys key).succeed

end Sys2Proof.Machine
end

