-- ==== Sys2Proof/Machine/EcbFramer.lean ====
section
/-! DEFINITION. The ECB framer and the commands `ECBENC` and `ECBDEC` (44_ecb_framer.md). -/

namespace Sys2Proof.Machine

/-- V1: the data buffer is present (44_ecb_framer.md rule R160). -/
def dataPresent (s : State) : Bool := fctlDpres s
/-- V2: the key is exactly 8 bytes. -/
def keyWidthOk (s : State) : Bool := fctlKlen s == 8
/-- V3: the length, read as a signed integer, is positive. -/
def lengthPositive (s : State) : Bool := decide (0 < s.len.toInt)
/-- V4: the length is a multiple of the block size. -/
def lengthAligned (s : State) : Bool := s.len.toNat % 8 == 0
/-- V5: the length is within the buffers' capacity. -/
def lengthFits (s : State) : Bool := withinCapacity s.len.toNat

/-- The validity predicate: V1 to V5 (44_ecb_framer.md rule R160). -/
def ecbValid (s : State) : Bool :=
  dataPresent s && keyWidthOk s && lengthPositive s && lengthAligned s && lengthFits s

/-- Block `b` of a byte list: its bytes `8b` to `8b+7` (44_ecb_framer.md rule R161). -/
def blockBytes (data : List Byte) (b : Nat) : List Byte := (data.drop (8 * b)).take 8

/-- One block through the block cipher, bytes in and bytes out (44_ecb_framer.md rule R161). -/
def cryptBytes (K : Schedule) (encrypt : Bool) (bs : List Byte) : List Byte :=
  bitsToBytes 8 (crypt (bytesToBits 8 bs) K encrypt)

/-- `EcbProcess(data, key, m)` with the blocks in ascending order (44_ecb_framer.md rule R161). -/
def ecbProcess (data : List Byte) (key : Block) (encrypt : Bool) : List Byte :=
  (List.range (data.length / 8)).flatMap fun b => cryptBytes (ks key) encrypt (blockBytes data b)

/-- One iteration of the command's loop: block `b` of the data, transformed, to the same offset of `OBUF`
(44_ecb_framer.md rule R162). -/
def ecbStore (K : Schedule) (encrypt : Bool) (data : List Byte) (obuf : Memory) (b : Nat) : Memory :=
  memWrite obuf (8 * b) (cryptBytes K encrypt (blockBytes data b))

/-- `ECBENC` and `ECBDEC` are one operation with the mode as its parameter (44_ecb_framer.md rules R162 and R163): the
validation first, then the operands, the schedule once, and the blocks in ascending order (rule R168). -/
def ecbCommand (encrypt : Bool) (s : State) : Host.Outcome State Fault Refusal :=
  if ecbValid s then
    needOperand s.key fun key =>
      needData s.ibuf s.len.toNat fun data =>
        .next ((s.deriveRoundKeys key).setObuf
          ((List.range (s.len.toNat / 8)).foldl (ecbStore (ks key) encrypt data) s.obuf)).succeed
  else .next s.raiseInvalidInput

/-- `ECBENC` (44_ecb_framer.md rule R162). -/
def execEcbenc (s : State) : Host.Outcome State Fault Refusal := ecbCommand true s

/-- `ECBDEC` (44_ecb_framer.md rule R163). -/
def execEcbdec (s : State) : Host.Outcome State Fault Refusal := ecbCommand false s

end Sys2Proof.Machine
end

