-- ==== Sys2Proof/Machine/Dispatch.lean ====
section
/-! DEFINITION. The dispatch: one arm per command. -/

namespace Sys2Proof.Machine

def exec (i : Instr) (s : State) : Host.Outcome State Fault Refusal :=
  match i with
  | .ksched => Sys2Proof.Machine.execKsched s
  | .roundf => Sys2Proof.Machine.execRoundf s
  | .decblk => Sys2Proof.Machine.execDecblk s
  | .encblk => Sys2Proof.Machine.execEncblk s
  | .ecbdec => Sys2Proof.Machine.execEcbdec s
  | .ecbenc => Sys2Proof.Machine.execEcbenc s

end Sys2Proof.Machine
end

