-- ==== Sys2Proof/Machine/HostPort.lean ====
section
/-! DEFINITION. The host's accesses (10_state.md rule R36, 30_encoding.md rule R77): what each does to the machine and what
a read returns, and the pseudo-instructions of 30_encoding.md rule R78 as the accesses they expand to. -/

namespace Sys2Proof.Machine

/-- A host write of `CMD`: decode the word and execute the command, or, for a reserved word, raise `InvalidInput`
(10_state.md rule R21, 30_encoding.md rules R74 and R79). -/
def issue (w : BitVec 8) (s : State) : Host.Outcome State Fault Refusal :=
  match decode w with
  | .ok i => exec i s
  | .error _ => .next s.raiseInvalidInput

/-- A host write of a register: a writable one takes the value, `CMD` issues a command, a write of a read-only register or
of a reserved index is ignored (10_state.md rule R36). -/
def hostWrite (r : RegName) (v : BitVec r.width) (s : State) : Host.Outcome State Fault Refusal :=
  match r, v with
  | .cmd, w => issue w s
  | .key, v => .next (s.setKey v)
  | .din, v => .next (s.setDin v)
  | .rin, v => .next (s.setRin v)
  | .skin, v => .next (s.setSkin v)
  | .len, v => .next (s.setLen v)
  | .fctl, v => .next (s.setFctl v)
  | .status, _ => .next s
  | .dout, _ => .next s
  | .fout, _ => .next s
  | .reserved _, _ => .next s
  | .rk _, _ => .next s

/-- What a read of a data register returns: its value, or a free value if it is unwritten (10_state.md rule R37). -/
def readMarked {w : Nat} (r : Marked w) (draw : Nat) : BitVec w :=
  if r.written then r.val else (Config.freeRegister draw).setWidth w

/-- What a host read of a register returns (10_state.md rules R36 and R37): `CMD`, a reserved index and a reserved field
read as 0. -/
def readRegister (s : State) (r : RegName) : BitVec r.width :=
  match r with
  | .cmd => 0#8
  | .status => s.status &&& statusMask
  | .key => readMarked s.key s.draws
  | .din => readMarked s.din s.draws
  | .dout => readMarked s.dout s.draws
  | .rin => readMarked s.rin s.draws
  | .skin => readMarked s.skin s.draws
  | .fout => readMarked s.fout s.draws
  | .len => s.len
  | .fctl => s.fctl &&& fctlMask
  | .reserved _ => 0#64
  | .rk i => readMarked ⟨s.rk[i], statusRkv s⟩ s.draws

/-- A buffer by its name. -/
def bufferOf (s : State) : BufName → Memory
  | .ibuf => s.ibuf
  | .obuf => s.obuf

/-- What a host read of `n` bytes of a buffer returns, in ascending offset order; an unwritten byte is a free value
(20_memory.md rule R56, 10_state.md rule R37). -/
def readBuffer (s : State) (b : BufName) (off n : Nat) : List Byte :=
  (List.range n).map fun k => ((bufferOf s b).read (off + k)).getD (Config.freeByte s.draws (off + k))

/-- A host write of bytes: into `IBUF` from `off` up; a write of `OBUF` is ignored (20_memory.md rules R51 and R52). -/
def writeBuffer (s : State) (b : BufName) (off : Nat) (bs : List Byte) : State :=
  match b with
  | .ibuf => s.setIbuf (memWrite s.ibuf off bs)
  | .obuf => s

/-- The reset event: every piece of the spec's state takes its reset value; the host's own record goes on
(70_reset_and_hazards.md rules R200 and R201). -/
def applyReset (s : State) : State :=
  { State.reset with pending := s.pending, seen := s.seen, draws := s.draws }

/-- Perform one access of the host. -/
def performAccess (a : Access) (s : State) : Host.Outcome State Fault Refusal :=
  match a with
  | .wr r v => hostWrite r v s
  | .rd r => .next (s.addReading (.reg r (readRegister s r)))
  | .wrm b off bs => if inBuffer off bs.length then .next (writeBuffer s b off bs) else .fault .outsideBuffer
  | .rdm b off n =>
    if inBuffer off n then .next (s.addReading (.bytes b off (readBuffer s b off n))) else .fault .outsideBuffer
  | .reset => .next (applyReset s)

/-- `cmd MNEMONIC` (30_encoding.md rule R78). -/
def pseudoCmd (i : Instr) : Access := .wr .cmd (encode i)

/-- `cmd BLK m`: `wr CMD, 0x06 + m` (30_encoding.md rule R78). -/
def pseudoBlk (m : Bool) : Access := .wr .cmd (0x06#8 + if m then 1#8 else 0#8)

/-- `cmd ECB m`: `wr CMD, 0x08 + m` (30_encoding.md rule R78). -/
def pseudoEcb (m : Bool) : Access := .wr .cmd (0x08#8 + if m then 1#8 else 0#8)

/-- `wrkey b0 .. b7`: load an 8-byte key and record its length beside the `DPRES` that `FCTL` holds, `fctl` being what
`FCTL` holds (30_encoding.md rule R78). The type admits exactly the eight bytes the rule defines it for (log 13). -/
def pseudoWrkey (fctl : BitVec 16) (bs : Vector Byte 8) : List Access :=
  [.wr .key (bytesToBits 8 bs.toList), .wr .fctl ((fctl &&& 0x0100#16) + 8#16)]

/-- `process m, data` (30_encoding.md rule R78). DESIGN CHOICE, safe (log 13): for `data` of 2^32 bytes or more, whose
length does not fit `LEN` and for which the spec gives no expansion, the length is written modulo 2^32. -/
def pseudoProcess (m : Bool) (data : List Byte) : List Access :=
  [.wrm .ibuf 0 data, .wr .len (BitVec.ofNat 32 data.length), .wr .fctl 0x0108#16, pseudoEcb m]

end Sys2Proof.Machine
end

