-- ==== Sys2Proof/Machine/Step.lean ====
section
/-! DEFINITION. One step: the host's next access is performed, atomically (20_memory.md rule R60). des_core fetches no
instructions (10_state.md rule R34): the next command is the next write of `CMD` the host makes. -/

namespace Sys2Proof.Machine

/-- One step. With no access to perform the machine is idle and nothing changes. -/
def step (s : State) : Host.Outcome State Fault Refusal :=
  match s.pending with
  | [] => .next s
  | a :: rest => performAccess a (s.setPending rest)

/-- `s` with the write of `CMD` that issues the word as the host's very next access (log 3). -/
def State.withFetchWord (s : State) (nbits w : Nat) : State :=
  s.setPending (.wr .cmd (tableByte nbits w) :: s.pending)

end Sys2Proof.Machine
end

