-- ==== Sys2Proof/Safety.lean ====
section
/-! DEFINITION. The terms claims are stated in: when a command may be issued (70_reset_and_hazards.md rule R202), the
validity of an ECB command as a proposition, what each command reads (30_encoding.md rule R75), the invariant every step
keeps, and when two states differ only where nothing can look. -/

namespace Sys2Proof.Machine

/-- The five conditions of 44_ecb_framer.md rule R160, on the bits of `FCTL` and `LEN` themselves. -/
def EcbPreconditions (s : State) : Prop :=
  s.fctl.getLsbD 8 = true ∧ s.fctl.toNat % 256 = 8 ∧ 0 < s.len.toInt ∧ s.len.toNat % 8 = 0 ∧
    ∀ m, Config.bufMax = some m → s.len.toNat ≤ m

/-- Every byte at the offsets below `n` is written. -/
def AllWritten (m : Memory) (n : Nat) : Prop := ∀ a, a < n → (m.read a).isSome = true

/-- What the host must have done before it issues the command (70_reset_and_hazards.md rule R202). -/
def Ready (i : Instr) (s : State) : Prop :=
  match i with
  | .ksched => s.key.written = true
  | .roundf => s.rin.written = true ∧ s.skin.written = true
  | .decblk => s.status.getLsbD 1 = true ∧ s.din.written = true
  | .encblk => s.status.getLsbD 1 = true ∧ s.din.written = true
  | .ecbdec => EcbPreconditions s ∧ s.key.written = true ∧ AllWritten s.ibuf s.len.toNat
  | .ecbenc => EcbPreconditions s ∧ s.key.written = true ∧ AllWritten s.ibuf s.len.toNat

/-- The two states hold the same operands of the command (the "reads" column of 30_encoding.md rule R75). -/
def SameOperands (i : Instr) (s s' : State) : Prop :=
  match i with
  | .ksched => s.key = s'.key
  | .roundf => s.rin = s'.rin ∧ s.skin = s'.skin
  | .decblk => s.din = s'.din ∧ s.rk = s'.rk ∧ s.status.getLsbD 1 = s'.status.getLsbD 1
  | .encblk => s.din = s'.din ∧ s.rk = s'.rk ∧ s.status.getLsbD 1 = s'.status.getLsbD 1
  | .ecbdec => s.key = s'.key ∧ s.len = s'.len ∧ s.fctl = s'.fctl ∧
      ∀ a, a < s.len.toNat → s.ibuf.read a = s'.ibuf.read a
  | .ecbenc => s.key = s'.key ∧ s.len = s'.len ∧ s.fctl = s'.fctl ∧
      ∀ a, a < s.len.toNat → s.ibuf.read a = s'.ibuf.read a

/-- `v` is `STATUS` with the outcome of a command in `ERR` and `RKV` as given; its other bits are those of `old`. -/
def StatusIs (v old : BitVec 8) (err rkv : Bool) : Prop :=
  v.getLsbD 0 = err ∧ v.getLsbD 1 = rkv ∧ ∀ i, 2 ≤ i → v.getLsbD i = old.getLsbD i

/-- What performing an access that took `s` to `t` has given the host: one reading, of the register or of the `n` bytes
asked for, by a read, and nothing by any other access (30_encoding.md rule R77). -/
def GivesHost (a : Access) (s t : State) : Prop :=
  match a with
  | .wr _ _ => t.seen = s.seen
  | .rd r => ∃ v, t.seen = .reg r v :: s.seen
  | .wrm _ _ _ => t.seen = s.seen
  | .rdm b off n => ∃ bs, bs.length = n ∧ t.seen = .bytes b off bs :: s.seen
  | .reset => t.seen = s.seen

/-- The six legal values of `CMD` (30_encoding.md rule R72). -/
def legalWords : List (BitVec 8) := [0x02, 0x04, 0x06, 0x07, 0x08, 0x09]

/-- The bytes from `off` up, `n` of them, all exist in a buffer of `BUFMAX` bytes (20_memory.md rules R51 and R52). -/
def InRange (off n : Nat) : Prop := n = 0 ∨ ∀ m, Config.bufMax = some m → off + n ≤ m

/-- At how many positions two sequences of the same width differ. -/
def differences {N : Nat} (a b : BitVec N) : Nat := (List.range N).countP fun q => bitAt a (q + 1) != bitAt b (q + 1)

/-- `x` with the bit at position `p` changed. -/
def flipAt {N : Nat} (x : BitVec N) (p : Nat) : BitVec N := x ^^^ (1#N <<< (N - p))

/-- The key position that bit `p` of the subkey of round `i` is taken from: the position `PC2` names, moved on by the
cumulative rotation inside its half, read back through `PC1` (41_key_schedule.md rules R100 to R102 and R111). -/
def keyPosition (i p : Nat) : Nat :=
  if pc2.entries.getD (p - 1) 0 ≤ 28 then
    pc1.entries.getD ((pc2.entries.getD (p - 1) 0 - 1 + total.getD i 0) % 28) 0
  else pc1.entries.getD (28 + (pc2.entries.getD (p - 1) 0 - 29 + total.getD i 0) % 28) 0

/-- What an ECB command is to do, `encrypt` its mode (44_ecb_framer.md rules R160, R162, R163 and R164): on invalid
operands `STATUS.ERR <- 1` and nothing else; on a valid command with an unwritten operand the fault; otherwise the
schedule of `KEY` into `RK`, every block through the cipher to the same offset of `OBUF`, and `Success`. -/
def EcbSpec (i : Instr) (encrypt : Bool) : Prop :=
  ∀ s : State,
    (¬EcbPreconditions s →
      ∃ v, exec i s = .next { s with status := v } ∧ StatusIs v s.status true (s.status.getLsbD 1)) ∧
    (EcbPreconditions s → ¬(s.key.written = true ∧ AllWritten s.ibuf s.len.toNat) →
      exec i s = .fault .unwrittenOperand) ∧
    (EcbPreconditions s → s.key.written = true → AllWritten s.ibuf s.len.toNat →
      ∃ v o, exec i s = .next { s with rk := ks s.key.val, status := v, obuf := o } ∧
        StatusIs v s.status false true ∧
        (∀ b bs, b < s.len.toNat / 8 → memRead s.ibuf (8 * b) 8 = some bs →
          memRead o (8 * b) 8 = some (bitsToBytes 8 (crypt (bytesToBits 8 bs) (ks s.key.val) encrypt))) ∧
        ∀ a, s.len.toNat ≤ a → o.read a = s.obuf.read a)

/-- A buffer in canonical form (strictly rising offsets), every listed offset below `BUFMAX`. -/
def BufferInv (m : Memory) : Prop :=
  m.wf = true ∧ ∀ c ∈ m, ∀ k, Config.bufMax = some k → c.1 < k

/-- What holds at reset and after every step: the reserved fields read as 0 (10_state.md rules R22 and R30), the buffers
are in canonical form and within their capacity, `RKV = 1` means that `RK` holds the schedule of some key (rule R22), and
the results that need a schedule are there only when there is one (rules R25 and R52). -/
structure Inv (s : State) : Prop where
  /-- `STATUS[7:2]` is 0 (10_state.md rule R22). -/
  status_reserved : ∀ i, 2 ≤ i → s.status.getLsbD i = false
  /-- `FCTL[15:9]` is 0 (10_state.md rule R30). -/
  fctl_reserved : ∀ i, 9 ≤ i → s.fctl.getLsbD i = false
  /-- `IBUF` (20_memory.md rule R51). -/
  ibuf_ok : BufferInv s.ibuf
  /-- `OBUF` (20_memory.md rule R52). -/
  obuf_ok : BufferInv s.obuf
  /-- `RK[0..15]` hold the schedule of some key when `RKV` says so (10_state.md rule R22). -/
  schedule_of_key : s.status.getLsbD 1 = true → ∃ key : Block, s.rk = ks key
  /-- `DOUT` is written only by a block command, which needs a schedule (10_state.md rule R25). -/
  dout_needs_schedule : s.dout.written = true → s.status.getLsbD 1 = true
  /-- A byte of `OBUF` is written only by an ECB command, which leaves a schedule (20_memory.md rule R52). -/
  obuf_needs_schedule : s.obuf ≠ [] → s.status.getLsbD 1 = true

/-- Two data registers that look the same: the same mark, and the same value where they are written. -/
def SameReg {w : Nat} (r r' : Marked w) : Prop := r.written = r'.written ∧ (r.written = true → r.val = r'.val)

/-- Two states that differ, if at all, only in the bits held by unwritten data registers (10_state.md rule R37). -/
structure SameVisible (s s' : State) : Prop where
  status : s.status = s'.status
  len : s.len = s'.len
  fctl : s.fctl = s'.fctl
  key : SameReg s.key s'.key
  din : SameReg s.din s'.din
  dout : SameReg s.dout s'.dout
  rin : SameReg s.rin s'.rin
  skin : SameReg s.skin s'.skin
  fout : SameReg s.fout s'.fout
  rk : s.status.getLsbD 1 = true → s.rk = s'.rk
  ibuf : s.ibuf = s'.ibuf
  obuf : s.obuf = s'.obuf
  pending : s.pending = s'.pending
  seen : s.seen = s'.seen
  draws : s.draws = s'.draws

end Sys2Proof.Machine
end

