-- ==== Sys2Proof/Certificates/Slice0/Obligations.lean ====
section
/-! DEFINITION. The statements for the provers, one `def Obligations.<Name> : Prop` each, in the order of
OBLIGATIONS.json. Each docstring names the rules of spec/ it formalises. -/

open Sys2Proof Sys2Proof.Machine

/-! Command words (30_encoding.md). -/

/-- The opcode map of 30_encoding.md rule R72: the six legal words and their commands, every other word reserved. -/
def Obligations.OpcodeMap : Prop :=
  decode 0x02#8 = .ok .ksched ∧ decode 0x04#8 = .ok .roundf ∧ decode 0x06#8 = .ok .decblk ∧
    decode 0x07#8 = .ok .encblk ∧ decode 0x08#8 = .ok .ecbdec ∧ decode 0x09#8 = .ok .ecbenc ∧
    ∀ w : BitVec 8, w ∉ legalWords → decode w = .error (.reserved w)

/-- Decode and encode agree in both directions, and a word is legal exactly when its three fields are well formed
(30_encoding.md rules R71, R72 and R79). -/
def Obligations.DecodeEncodeAgree : Prop :=
  (∀ i : Instr, i.wellFormed = true → decode (encode i) = .ok i) ∧
    (∀ (w : BitVec 8) (i : Instr), decode w = .ok i → w = encode i ∧ fieldsOf w = i.fields) ∧
    ∀ w : BitVec 8, (∃ i, decode w = .ok i) ↔ (fieldsOf w).wellFormed = true

/-- 30_encoding.md rule R74: a reserved word ends in `InvalidInput` and changes nothing else, and the reserved words are
those with a non-zero `zero` field, an unassigned `op`, or `m = 1` with `op` 1 or 2. -/
def Obligations.ReservedWordRaisesInvalidInput : Prop :=
  (∀ (w : BitVec 8) (s : State), w ∉ legalWords →
    ∃ v, issue w s = .next { s with status := v } ∧ StatusIs v s.status true (s.status.getLsbD 1)) ∧
    ∀ w : BitVec 8, w ∉ legalWords ↔
      ((fieldsOf w).zero ≠ 0 ∨ (fieldsOf w).op ∈ [0#3, 5#3, 6#3, 7#3] ∨
        ((fieldsOf w).m = 1 ∧ (fieldsOf w).op ∈ [1#3, 2#3]))

/-! The step and the host's accesses (10_state.md, 20_memory.md, 70_reset_and_hazards.md). The list of pending accesses is
the model's own field (log 3). -/

/-- A write of `CMD` with the word of a command executes that command on the state the access leaves (10_state.md rule
R21); a reserved word issues nothing; with no access pending nothing changes (log 3). -/
def Obligations.StepRunsDecodedCommand : Prop :=
  (∀ (s : State) (w : BitVec 8) (rest : List Access) (i : Instr),
    s.pending = .wr .cmd w :: rest → decode w = .ok i → step s = exec i { s with pending := rest }) ∧
    (∀ (s : State) (i : Instr), step (s.withFetchWord 8 (encode i).toNat) = exec i s) ∧
    (∀ (s : State) (w : BitVec 8) (rest : List Access) (e : DecodeError),
      s.pending = .wr .cmd w :: rest → decode w = .error e → step s = issue w { s with pending := rest }) ∧
    ∀ s : State, s.pending = [] → step s = .next s

/-- Accesses take effect one at a time, in the order issued: a step performs the first one, whatever it answers, on the
state that has the rest still to come; where it goes on, exactly the rest is left, a write, a buffer write and reset give
the host nothing, and a read gives it exactly one reading, of the register or the bytes it asked for (20_memory.md rule
R60; 10_state.md rule R36). -/
def Obligations.StepPerformsOneAccess : Prop :=
  ∀ (s : State) (a : Access) (rest : List Access), s.pending = a :: rest →
    step s = performAccess a { s with pending := rest } ∧
    ∀ t, step s = .next t → t.pending = rest ∧ GivesHost a s t

/-- What a host read of a register returns: the full value of a readable register, 0 for `CMD`, a reserved index and a
reserved field; and it changes nothing but the host's own record (10_state.md rules R21 and R36). -/
def Obligations.HostReadReturnsRegister : Prop :=
  ∀ (s : State) (rest : List Access),
    (s.pending = .rd .cmd :: rest →
      step s = .next (({ s with pending := rest } : State).addReading (.reg .cmd 0#8))) ∧
    (s.pending = .rd .status :: rest →
      ∃ v, step s = .next (({ s with pending := rest } : State).addReading (.reg .status v)) ∧
        ∀ i, v.getLsbD i = (decide (i < 2) && s.status.getLsbD i)) ∧
    (s.pending = .rd .key :: rest → s.key.written = true →
      step s = .next (({ s with pending := rest } : State).addReading (.reg .key s.key.val))) ∧
    (s.pending = .rd .din :: rest → s.din.written = true →
      step s = .next (({ s with pending := rest } : State).addReading (.reg .din s.din.val))) ∧
    (s.pending = .rd .dout :: rest → s.dout.written = true →
      step s = .next (({ s with pending := rest } : State).addReading (.reg .dout s.dout.val))) ∧
    (s.pending = .rd .rin :: rest → s.rin.written = true →
      step s = .next (({ s with pending := rest } : State).addReading (.reg .rin s.rin.val))) ∧
    (s.pending = .rd .skin :: rest → s.skin.written = true →
      step s = .next (({ s with pending := rest } : State).addReading (.reg .skin s.skin.val))) ∧
    (s.pending = .rd .fout :: rest → s.fout.written = true →
      step s = .next (({ s with pending := rest } : State).addReading (.reg .fout s.fout.val))) ∧
    (s.pending = .rd .len :: rest →
      step s = .next (({ s with pending := rest } : State).addReading (.reg .len s.len))) ∧
    (s.pending = .rd .fctl :: rest →
      ∃ v, step s = .next (({ s with pending := rest } : State).addReading (.reg .fctl v)) ∧
        ∀ i, v.getLsbD i = (decide (i < 9) && s.fctl.getLsbD i)) ∧
    (∀ i, s.pending = .rd (.reserved i) :: rest →
      step s = .next (({ s with pending := rest } : State).addReading (.reg (.reserved i) 0#64))) ∧
    ∀ i : Fin 16, s.pending = .rd (.rk i) :: rest → s.status.getLsbD 1 = true →
      step s = .next (({ s with pending := rest } : State).addReading (.reg (.rk i) s.rk[i]))

/-- A host read of an unwritten register goes on and returns the free value of that read, cut to the register's width,
and a free value only (10_state.md rule R37; log 4): it holds whatever the free value is. -/
def Obligations.HostReadOfUnwrittenIsFree : Prop :=
  ∀ (s : State) (rest : List Access),
    (s.pending = .rd .key :: rest → s.key.written = false → step s =
      .next (({ s with pending := rest } : State).addReading (.reg .key (Config.freeRegister s.draws)))) ∧
    (s.pending = .rd .din :: rest → s.din.written = false → step s =
      .next (({ s with pending := rest } : State).addReading (.reg .din (Config.freeRegister s.draws)))) ∧
    (s.pending = .rd .dout :: rest → s.dout.written = false → step s =
      .next (({ s with pending := rest } : State).addReading (.reg .dout (Config.freeRegister s.draws)))) ∧
    (s.pending = .rd .rin :: rest → s.rin.written = false → step s =
      .next (({ s with pending := rest } : State).addReading
        (.reg .rin ((Config.freeRegister s.draws).extractLsb' 0 32)))) ∧
    (s.pending = .rd .skin :: rest → s.skin.written = false → step s =
      .next (({ s with pending := rest } : State).addReading
        (.reg .skin ((Config.freeRegister s.draws).extractLsb' 0 48)))) ∧
    (s.pending = .rd .fout :: rest → s.fout.written = false → step s =
      .next (({ s with pending := rest } : State).addReading
        (.reg .fout ((Config.freeRegister s.draws).extractLsb' 0 32)))) ∧
    ∀ i : Fin 16, s.pending = .rd (.rk i) :: rest → s.status.getLsbD 1 = false → step s =
      .next (({ s with pending := rest } : State).addReading
        (.reg (.rk i) ((Config.freeRegister s.draws).extractLsb' 0 48)))

/-- What a host write of a register does: a writable register takes the full value and is written, the reserved bits of
`FCTL` stay 0, and a write of a read-only register or of a reserved index is ignored (10_state.md rules R30 and R36). -/
def Obligations.HostWriteStoresRegister : Prop :=
  ∀ (s : State) (rest : List Access),
    (∀ v, s.pending = .wr .key v :: rest → step s = .next { s with pending := rest, key := ⟨v, true⟩ }) ∧
    (∀ v, s.pending = .wr .din v :: rest → step s = .next { s with pending := rest, din := ⟨v, true⟩ }) ∧
    (∀ v, s.pending = .wr .rin v :: rest → step s = .next { s with pending := rest, rin := ⟨v, true⟩ }) ∧
    (∀ v, s.pending = .wr .skin v :: rest → step s = .next { s with pending := rest, skin := ⟨v, true⟩ }) ∧
    (∀ v, s.pending = .wr .len v :: rest → step s = .next { s with pending := rest, len := v }) ∧
    (∀ v, s.pending = .wr .fctl v :: rest →
      ∃ f, step s = .next { s with pending := rest, fctl := f } ∧
        ∀ i, f.getLsbD i = (decide (i < 9) && (v : BitVec 16).getLsbD i)) ∧
    (∀ v, s.pending = .wr .status v :: rest → step s = .next { s with pending := rest }) ∧
    (∀ v, s.pending = .wr .dout v :: rest → step s = .next { s with pending := rest }) ∧
    (∀ v, s.pending = .wr .fout v :: rest → step s = .next { s with pending := rest }) ∧
    (∀ i v, s.pending = .wr (.reserved i) v :: rest → step s = .next { s with pending := rest }) ∧
    ∀ i v, s.pending = .wr (.rk i) v :: rest → step s = .next { s with pending := rest }

/-- A host write of bytes: into `IBUF` in ascending order from its offset, every other byte and register unchanged; a
write of `OBUF` is ignored (20_memory.md rules R51, R52 and R56). Bytes outside the buffer do not exist: the model's own
fault (log 7). -/
def Obligations.HostBufferWrite : Prop :=
  ∀ (s : State) (rest : List Access) (off : Nat) (bs : List Byte),
    (s.pending = .wrm .ibuf off bs :: rest → InRange off bs.length →
      ∃ m, step s = .next { s with pending := rest, ibuf := m } ∧
        ∀ a, m.read a = if off ≤ a ∧ a < off + bs.length then bs[a - off]? else s.ibuf.read a) ∧
    (s.pending = .wrm .obuf off bs :: rest → InRange off bs.length → step s = .next { s with pending := rest }) ∧
    ∀ b, s.pending = .wrm b off bs :: rest → ¬InRange off bs.length → step s = .fault .outsideBuffer

/-- A host read of bytes: each written byte of either buffer is returned at its place, each unwritten one as the free
value of that read and offset (10_state.md rule R37; log 4), and nothing changes but the host's own record (20_memory.md
rules R51, R52, R56 and R57). It holds whatever the free values are. Bytes outside the buffer do not exist: the model's own fault
(log 7). -/
def Obligations.HostBufferRead : Prop :=
  ∀ (s : State) (rest : List Access) (b : BufName) (off n : Nat), s.pending = .rdm b off n :: rest →
    (InRange off n →
      ∃ bs, step s = .next (({ s with pending := rest } : State).addReading (.bytes b off bs)) ∧ bs.length = n ∧
        ∀ k, k < n →
          (∀ v, (if b = .ibuf then s.ibuf else s.obuf).read (off + k) = some v → bs[k]? = some v) ∧
          ((if b = .ibuf then s.ibuf else s.obuf).read (off + k) = none →
            bs[k]? = some (Config.freeByte s.draws (off + k)))) ∧
    (¬InRange off n → step s = .fault .outsideBuffer)

/-- 10_state.md rule R38: what reset leaves. The values of the unwritten registers are the model's choice (log 1) and are
not stated. -/
def Obligations.ResetState : Prop :=
  State.reset.status = 0x00#8 ∧ State.reset.len = 0#32 ∧ State.reset.fctl = 0x0000#16 ∧
    State.reset.key.written = false ∧ State.reset.din.written = false ∧ State.reset.dout.written = false ∧
    State.reset.rin.written = false ∧ State.reset.skin.written = false ∧ State.reset.fout.written = false ∧
    ∀ a, State.reset.ibuf.read a = none ∧ State.reset.obuf.read a = none

/-- 70_reset_and_hazards.md rule R200: the reset event takes every piece of the spec's state to its reset value, from any
state, the values the model names for unwritten registers among them (log 1); only the host's own record goes on (log 3). -/
def Obligations.ResetEvent : Prop :=
  ∀ (s : State) (rest : List Access), s.pending = .reset :: rest →
    step s = .next { State.reset with pending := rest, seen := s.seen, draws := s.draws }

/-! The BitVector primitives (40_bitvector.md). -/

/-- 40_bitvector.md rule R90: the bit at position `8j+k+1` is bit `7-k` of byte `j`, and the register view is the sum of
`B[j] * 2^(8(N-1-j))`. -/
def Obligations.BytesToBitsPositions : Prop :=
  ∀ B : List Byte,
    (∀ j k, j < B.length → k < 8 →
      bitAt (bytesToBits B.length B) (8 * j + k + 1) = (B.getD j 0).getLsbD (7 - k)) ∧
    (bytesToBits B.length B).toNat =
      ((List.range B.length).map fun j => (B.getD j 0).toNat * 2 ^ (8 * (B.length - 1 - j))).sum

/-- 40_bitvector.md rule R91: `bitsToBytes` is the inverse of `bytesToBits`, in both directions, and gives bit `7-k` of
byte `j` the bit at position `8j+k+1`. -/
def Obligations.BytesBitsRoundTrip : Prop :=
  (∀ B : List Byte, bitsToBytes B.length (bytesToBits B.length B) = B) ∧
    (∀ (N : Nat) (x : BitVec (8 * N)), bytesToBits N (bitsToBytes N x) = x ∧ (bitsToBytes N x).length = N) ∧
    ∀ (N : Nat) (x : BitVec (8 * N)) (j k : Nat), j < N → k < 8 →
      ((bitsToBytes N x).getD j 0).getLsbD (7 - k) = bitAt x (8 * j + k + 1)

/-- 40_bitvector.md rule R92: output position `i` is the input position the `i`-th entry names, for every table. -/
def Obligations.ApplyTablePositions : Prop :=
  ∀ (W N : Nat) (T : PermTable W N) (x : BitVec W) (i : Nat), 1 ≤ i → i ≤ N →
    bitAt (applyTable x T) i = bitAt x (T.entries.getD (i - 1) 0)

/-- 40_bitvector.md rule R93 and the properties rules R100, R101, R120, R121, R123, R140 and R141 give their tables, with
the S-box indices of 60_exceptions.md rule R188 in range. -/
def Obligations.TablesWellShaped : Prop :=
  initialPerm.entries.Perm (List.range' 1 64) ∧ finalPerm.entries.Perm (List.range' 1 64) ∧
    straight.entries.Perm (List.range' 1 32) ∧
    pc1.entries.Perm ((List.range' 1 64).filter fun p => p % 8 != 0) ∧
    pc2.entries.Perm ((List.range' 1 56).filter fun p => !([9, 18, 22, 25, 35, 38, 43, 54].contains p)) ∧
    (∀ p ∈ List.range' 1 32, expansion.entries.count p = if p % 4 = 0 ∨ p % 4 = 1 then 2 else 1) ∧
    sboxes.length = 8 ∧ (∀ S ∈ sboxes, S.length = 4 ∧ ∀ row ∈ S, row.Perm (List.range 16)) ∧
    ∀ b : BitVec 6, sboxRow b < 4 ∧ sboxColumn b < 16

/-- 40_bitvector.md rule R96: the rotation by positions, its corner cases, its composition, and that 28 one-bit rotations
restore the half. The rule defines the rotation for counts 1 and 2; that the clauses on positions, corner cases and
composition hold for every count is the model's choice of a total function (log 12). -/
def Obligations.RotationPositions : Prop :=
  (∀ (x : KeyHalf) (n p : Nat), 1 ≤ p → p ≤ 28 → bitAt (rol28 x n) p = bitAt x ((p - 1 + n) % 28 + 1)) ∧
    (∀ n, rol28 0 n = 0 ∧ rol28 0xFFFFFFF#28 n = 0xFFFFFFF#28) ∧
    (∀ (x : KeyHalf) (a b : Nat), rol28 (rol28 x a) b = rol28 x ((a + b) % 28)) ∧
    (∀ (x : KeyHalf) (n : Nat), n = 1 ∨ n = 2 →
      (rol28 x n).toNat = (x.toNat * 2 ^ n + x.toNat / 2 ^ (28 - n)) % 2 ^ 28) ∧
    (∀ x : KeyHalf, (List.range 28).foldl (fun y _ => rol28 y 1) x = x) ∧
    rol28 0xF0CCAAF#28 1 = 0xE19955F#28 ∧ rol28 0xC332ABF#28 2 = 0x0CCAAFF#28

/-! The key schedule (41_key_schedule.md). -/

/-- 41_key_schedule.md rule R106: `KSCHED`, with its encoding, its fault, its effect on every register, and the worked
example. -/
def Obligations.KschedDerivesRoundKeys : Prop :=
  decode 0x02#8 = .ok .ksched ∧
    (∀ s : State, s.key.written = true →
      ∃ v, exec .ksched s = .next { s with rk := ks s.key.val, status := v } ∧ StatusIs v s.status false true) ∧
    (∀ s : State, s.key.written = false → exec .ksched s = .fault .unwrittenOperand) ∧
    (ks 0x133457799BBCDFF1#64)[0] = 0x1B02EFFC7072#48 ∧ (ks 0x133457799BBCDFF1#64)[15] = 0xCB3D8B0E17F5#48

/-- 41_key_schedule.md rule R104, in the rule's own names: whatever the sequences `C` and `D` are that start with the two
halves of the parity-dropped key and go on round by round, the subkeys are the compressed halves after each rotation. -/
def Obligations.KeyScheduleByRounds : Prop :=
  ∀ (key : Block) (C D : Nat → KeyHalf),
    (∀ p, 1 ≤ p → p ≤ 28 → bitAt (C 0) p = bitAt (applyTable key pc1) p ∧
      bitAt (D 0) p = bitAt (applyTable key pc1) (28 + p)) →
    (∀ i, i < 16 → C (i + 1) = rol28 (C i) (if i ∈ [0, 1, 8, 15] then 1 else 2) ∧
      D (i + 1) = rol28 (D i) (if i ∈ [0, 1, 8, 15] then 1 else 2)) →
    ∀ (i : Nat) (h : i < 16), (ks key)[i] = applyTable (C (i + 1) ++ D (i + 1)) pc2

/-- Every bit of every subkey, by the key position it is taken from (41_key_schedule.md rules R100 to R102, R104 and
R111; 40_bitvector.md rules R92 and R96). -/
def Obligations.SubkeyBitsByKeyPosition : Prop :=
  ∀ (key : Block) (i p : Nat) (h : i < 16), 1 ≤ p → p ≤ 48 → bitAt (ks key)[i] p = bitAt key (keyPosition i p)

/-- 41_key_schedule.md rule R111: the halves after each round are the first halves rotated by the cumulative total. -/
def Obligations.CumulativeEqualsTotal : Prop :=
  ∀ (key : Block) (i : Nat), i < 16 →
    halvesAfter key (i + 1) = (rol28 (keyC key) (total.getD i 0), rol28 (keyD key) (total.getD i 0))

/-- 41_key_schedule.md rule R112: the halves come home. -/
def Obligations.HalvesComeHome : Prop :=
  total.getD 15 0 = 28 ∧ ∀ key : Block, halvesAfter key 16 = halvesAfter key 0

/-- 41_key_schedule.md rule R110: two keys that differ only at positions that are multiples of 8 have the same schedule. -/
def Obligations.ParityBitsDoNotMatter : Prop :=
  ∀ key key' : Block, (∀ p, 1 ≤ p → p ≤ 64 → p % 8 ≠ 0 → bitAt key p = bitAt key' p) → ks key = ks key'

/-- How far one key bit reaches (41_key_schedule.md rule R113): a change of one bit changes at most one bit of each
subkey, and, off the parity positions, between 12 and 15 of the sixteen subkeys. -/
def Obligations.OneKeyBitReaches : Prop :=
  ∀ (key : Block) (p : Nat), 1 ≤ p → p ≤ 64 →
    (∀ (i : Nat) (h : i < 16), differences (ks (flipAt key p))[i] (ks key)[i] ≤ 1) ∧
    (p % 8 ≠ 0 →
      12 ≤ (List.finRange 16).countP (fun i => (ks (flipAt key p))[i] != (ks key)[i]) ∧
        (List.finRange 16).countP (fun i => (ks (flipAt key p))[i] != (ks key)[i]) ≤ 15)

/-! The round function (42_round_function.md). -/

/-- 42_round_function.md rule R126: `ROUNDF`, with its encoding, its fault, its effect on every register, and the worked
examples. -/
def Obligations.RoundfComputes : Prop :=
  decode 0x04#8 = .ok .roundf ∧
    (∀ s : State, s.rin.written = true → s.skin.written = true →
      ∃ v, exec .roundf s = .next { s with fout := ⟨roundFn s.rin.val s.skin.val, true⟩, status := v } ∧
        StatusIs v s.status false (s.status.getLsbD 1)) ∧
    (∀ s : State, s.rin.written = false ∨ s.skin.written = false → exec .roundf s = .fault .unwrittenOperand) ∧
    substitute (applyTable 0x00000000#32 expansion ^^^ 0x000000000000#48) = 0xEFA72C4D#32 ∧
    roundFn 0x00000000#32 0x000000000000#48 = 0xD8D8DBBC#32 ∧
    applyTable 0xF0AAF0AA#32 expansion = 0x7A15557A1555#48 ∧
    (0x7A15557A1555#48 ^^^ 0x1B02EFFC7072#48) = 0x6117BA866527#48 ∧
    (List.range 8).map (group 0x6117BA866527#48) =
      [0b011000#6, 0b010001#6, 0b011110#6, 0b111010#6, 0b100001#6, 0b100110#6, 0b010100#6, 0b100111#6] ∧
    substitute 0x6117BA866527#48 = 0x5C82B597#32 ∧
    roundFn 0xF0AAF0AA#32 0x1B02EFFC7072#48 = 0x234AA9BB#32

/-- Every bit of the round function, by positions: the expanded and mixed group addresses its S-box by row (outer bits)
and column (inner bits), and the value's bits are taken out through `P` (42_round_function.md rules R120 to R124). -/
def Obligations.RoundFunctionByPosition : Prop :=
  ∀ (r : Half) (k : Subkey) (p : Nat), 1 ≤ p → p ≤ 32 →
    let j := straight.entries.getD (p - 1) 0 - 1
    let b := fun n => xor (bitAt r (expansion.entries.getD (6 * (j / 4) + n) 0)) (bitAt k (6 * (j / 4) + n + 1))
    bitAt (roundFn r k) p =
      (sboxEntry (j / 4) (2 * (b 0).toNat + (b 5).toNat)
        (8 * (b 1).toNat + 4 * (b 2).toNat + 2 * (b 3).toNat + (b 4).toNat)).testBit (3 - j % 4)

/-- 42_round_function.md rule R127: a difference at one position makes one difference after the expansion at the sixteen
positions used once, two at the sixteen used twice; with the rule's examples. -/
def Obligations.ExpansionDifferences : Prop :=
  (∀ (r r' : Half) (p : Nat), 1 ≤ p → p ≤ 32 →
    (∀ q, 1 ≤ q → q ≤ 32 → (bitAt r q ≠ bitAt r' q ↔ q = p)) →
    differences (applyTable r expansion) (applyTable r' expansion) =
      if p ∈ [2, 3, 6, 7, 10, 11, 14, 15, 18, 19, 22, 23, 26, 27, 30, 31] then 1 else 2) ∧
    applyTable 0x00000002#32 expansion = 0x000000000004#48 ∧ applyTable 0x00000001#32 expansion = 0x800000000002#48

/-- 42_round_function.md rule R128: `F` depends on its operands only through the mixed value, and is neither injective in
`r` for some fixed `k` nor linear; with the rule's example. -/
def Obligations.RoundFunctionSeesMixedValueOnly : Prop :=
  (∀ (r r' : Half) (k k' : Subkey), applyTable r expansion ^^^ k = applyTable r' expansion ^^^ k' →
    roundFn r k = roundFn r' k') ∧
    roundFn 0xFFFFFFFF#32 0xFFFFFFFFFFFF#48 = roundFn 0#32 0#48 ∧ roundFn 0#32 0#48 = 0xD8D8DBBC#32 ∧
    (∃ (k : Subkey) (r r' : Half), r ≠ r' ∧ roundFn r k = roundFn r' k) ∧
    ∃ (k : Subkey) (r r' : Half), roundFn (r ^^^ r') k ≠ roundFn r k ^^^ roundFn r' k

/-! The block cipher (43_block_cipher.md). -/

/-- 43_block_cipher.md rule R147: `ENCBLK`, with its encoding, its faults, its effect on every register, and the worked
example. -/
def Obligations.EncblkEncrypts : Prop :=
  decode 0x07#8 = .ok .encblk ∧
    (∀ s : State, s.status.getLsbD 1 = true → s.din.written = true →
      ∃ v, exec .encblk s = .next { s with dout := ⟨crypt s.din.val s.rk true, true⟩, status := v } ∧
        StatusIs v s.status false true) ∧
    (∀ s : State, s.status.getLsbD 1 = false → exec .encblk s = .fault .noSchedule) ∧
    (∀ s : State, s.status.getLsbD 1 = true → s.din.written = false → exec .encblk s = .fault .unwrittenOperand) ∧
    applyTable 0x0123456789ABCDEF#64 initialPerm = 0xCC00CCFFF0AAF0AA#64 ∧
    initialHalves 0x0123456789ABCDEF#64 = (0xCC00CCFF#32, 0xF0AAF0AA#32) ∧
    (feistelRound (0xCC00CCFF#32, 0xF0AAF0AA#32) (ks 0x133457799BBCDFF1#64)[0]).2 = 0xEF4A6544#32 ∧
    (subkeyOrder (ks 0x133457799BBCDFF1#64) true).foldl feistelRound (0xCC00CCFF#32, 0xF0AAF0AA#32) =
      (0x43423234#32, 0x0A4CD995#32) ∧
    assemble (0x43423234#32, 0x0A4CD995#32) = applyTable 0x0A4CD99543423234#64 finalPerm ∧
    crypt 0x0123456789ABCDEF#64 (ks 0x133457799BBCDFF1#64) true = 0x85E813540F0AB405#64

/-- 43_block_cipher.md rule R148: `DECBLK`, with its encoding, its faults, its effect on every register, its corner case
on the result of an `ENCBLK` and the other way round, and the worked example. -/
def Obligations.DecblkDecrypts : Prop :=
  decode 0x06#8 = .ok .decblk ∧
    (∀ s : State, s.status.getLsbD 1 = true → s.din.written = true →
      ∃ v, exec .decblk s = .next { s with dout := ⟨crypt s.din.val s.rk false, true⟩, status := v } ∧
        StatusIs v s.status false true) ∧
    (∀ s : State, s.status.getLsbD 1 = false → exec .decblk s = .fault .noSchedule) ∧
    (∀ s : State, s.status.getLsbD 1 = true → s.din.written = false → exec .decblk s = .fault .unwrittenOperand) ∧
    (∀ s t : State, exec .encblk s = .next t →
      ∃ u, exec .decblk { t with din := t.dout } = .next u ∧ u.dout = s.din) ∧
    (∀ s t : State, exec .decblk s = .next t →
      ∃ u, exec .encblk { t with din := t.dout } = .next u ∧ u.dout = s.din) ∧
    applyTable 0x85E813540F0AB405#64 initialPerm = 0x0A4CD99543423234#64 ∧
    initialHalves 0x85E813540F0AB405#64 = (0x0A4CD995#32, 0x43423234#32) ∧
    (subkeyOrder (ks 0x133457799BBCDFF1#64) false).foldl feistelRound (0x0A4CD995#32, 0x43423234#32) =
      (0xF0AAF0AA#32, 0xCC00CCFF#32) ∧
    assemble (0xF0AAF0AA#32, 0xCC00CCFF#32) = applyTable 0xCC00CCFFF0AAF0AA#64 finalPerm ∧
    crypt 0x85E813540F0AB405#64 (ks 0x133457799BBCDFF1#64) false = 0x0123456789ABCDEF#64

/-- 43_block_cipher.md rules R143 and R144, in the rules' own names: whatever the sequences `L` and `R` are that start with
the halves of the permuted block and go on round by round with subkey `K[i]` (encryption) or `K[15-i]` (decryption), the
result is `FP` of `R_16 ++ L_16`. -/
def Obligations.CryptByRounds : Prop :=
  ∀ (x : Block) (K : Schedule) (m : Bool) (L R : Nat → Half),
    (∀ p, 1 ≤ p → p ≤ 32 → bitAt (L 0) p = bitAt (applyTable x initialPerm) p ∧
      bitAt (R 0) p = bitAt (applyTable x initialPerm) (32 + p)) →
    (∀ (i : Nat) (h : i < 16), L (i + 1) = R i ∧
      R (i + 1) = L i ^^^ roundFn (R i) (if m then K[i] else K[15 - i])) →
    crypt x K m = applyTable (R 16 ++ L 16) finalPerm

/-- 43_block_cipher.md rule R142: `FP` is the inverse of `IP`, on blocks and entry by entry. -/
def Obligations.FinalPermInvertsInitial : Prop :=
  (∀ x : Block, applyTable (applyTable x initialPerm) finalPerm = x ∧
    applyTable (applyTable x finalPerm) initialPerm = x) ∧
    ∀ i, 1 ≤ i → i ≤ 64 → initialPerm.entries.getD (finalPerm.entries.getD (i - 1) 0 - 1) 0 = i ∧
      finalPerm.entries.getD (initialPerm.entries.getD (i - 1) 0 - 1) 0 = i

/-- 43_block_cipher.md rule R149: the round trip at block level, for every block and EVERY sixteen subkeys, and the
source's law for whole data. On the empty data, for which 44_ecb_framer.md rule R161 gives no value, the law rests on the
model's choice of a total function (log 12). -/
def Obligations.BlockRoundTrip : Prop :=
  (∀ (x : Block) (K : Schedule), crypt (crypt x K true) K false = x ∧ crypt (crypt x K false) K true = x) ∧
    ∀ (data : List Byte) (key : Block), data.length % 8 = 0 →
      ecbProcess (ecbProcess data key true) key false = data

/-- The decryption halves are the encryption halves in reverse with left and right exchanged (43_block_cipher.md rule
R149; 95_test_vectors.md L2.5). -/
def Obligations.DecryptionRetracesEncryption : Prop :=
  ∀ (x : Block) (K : Schedule) (j : Nat), j ≤ 16 →
    ((subkeyOrder K false).take j).foldl feistelRound (initialHalves (crypt x K true)) =
      (((subkeyOrder K true).take (16 - j)).foldl feistelRound (initialHalves x)).swap

/-- Key and block both complemented give the complemented result, in both directions (40_bitvector.md rule R94;
41_key_schedule.md rule R104; 43_block_cipher.md rules R143 and R144; an instance is 95_test_vectors.md L2.6's last row). -/
def Obligations.ComplementedKeyAndBlock : Prop :=
  ∀ (x key : Block) (m : Bool), crypt (~~~x) (ks (~~~key)) m = ~~~(crypt x (ks key) m)

/-- A new `KEY` does not reach a block command: it runs as if `KEY` had not been written (70_reset_and_hazards.md rule
R203, 20_memory.md rule R63). -/
def Obligations.StaleRoundKeys : Prop :=
  ∀ (s t : State) (v : BitVec 64) (i : Instr), i = .encblk ∨ i = .decblk → exec i s = .next t →
    exec i { s with key := ⟨v, true⟩ } = .next { t with key := ⟨v, true⟩ } ∧ t.rk = s.rk

/-! The ECB framer (44_ecb_framer.md). -/

/-- 44_ecb_framer.md rule R160: an ECB command is valid exactly when V1 to V5 hold, and if any fails it ends in
`InvalidInput`. -/
def Obligations.EcbValidity : Prop :=
  (∀ s : State, ecbValid s = true ↔
    (s.fctl.getLsbD 8 = true ∧ s.fctl.extractLsb' 0 8 = 8#8 ∧ 0 < s.len.toInt ∧ s.len.toNat % 8 = 0 ∧
      ∀ m, Config.bufMax = some m → s.len.toNat ≤ m)) ∧
    ∀ (s : State) (i : Instr), i = .ecbenc ∨ i = .ecbdec → ecbValid s = false →
      exec i s = .next s.raiseInvalidInput

/-- 44_ecb_framer.md rule R164: an invalid ECB command sets `STATUS.ERR` and changes nothing else. -/
def Obligations.InvalidEcbCommandIsAtomic : Prop :=
  ∀ (s : State) (i : Instr), i = .ecbenc ∨ i = .ecbdec → ¬EcbPreconditions s →
    ∃ v, exec i s = .next { s with status := v } ∧ StatusIs v s.status true (s.status.getLsbD 1)

/-- 44_ecb_framer.md rule R162: `ECBENC`, with its encoding, its exception, its fault, its effect on every register and
every byte, and the worked example. -/
def Obligations.EcbencEncryptsBuffer : Prop :=
  decode 0x09#8 = .ok .ecbenc ∧ EcbSpec .ecbenc true ∧
    ∀ s : State, s.key = ⟨0x133457799BBCDFF1#64, true⟩ → s.fctl = 0x0108#16 → s.len = 8#32 → s.status = 0#8 →
      memRead s.ibuf 0 8 = some [0x01#8, 0x23#8, 0x45#8, 0x67#8, 0x89#8, 0xAB#8, 0xCD#8, 0xEF#8] →
      ∃ t, exec .ecbenc s = .next t ∧ t.status = 0x02#8 ∧
        memRead t.obuf 0 8 = some [0x85#8, 0xE8#8, 0x13#8, 0x54#8, 0x0F#8, 0x0A#8, 0xB4#8, 0x05#8]

/-- 44_ecb_framer.md rule R163: `ECBDEC`, as `ECBENC` with the mode 0, and the worked example. -/
def Obligations.EcbdecDecryptsBuffer : Prop :=
  decode 0x08#8 = .ok .ecbdec ∧ EcbSpec .ecbdec false ∧
    ∀ s : State, s.key = ⟨0x133457799BBCDFF1#64, true⟩ → s.fctl = 0x0108#16 → s.len = 8#32 → s.status = 0#8 →
      memRead s.ibuf 0 8 = some [0x85#8, 0xE8#8, 0x13#8, 0x54#8, 0x0F#8, 0x0A#8, 0xB4#8, 0x05#8] →
      ∃ t, exec .ecbdec s = .next t ∧ t.status = 0x02#8 ∧
        memRead t.obuf 0 8 = some [0x01#8, 0x23#8, 0x45#8, 0x67#8, 0x89#8, 0xAB#8, 0xCD#8, 0xEF#8]

/-- A successful ECB command leaves in `OBUF[0..LEN-1]` the `EcbProcess` of `IBUF[0..LEN-1]`, which is as long as its
input, and leaves the bytes from `LEN` up alone (44_ecb_framer.md rules R161 and R165; 20_memory.md rule R52). -/
def Obligations.EcbOutputIsEcbProcess : Prop :=
  ∀ (s t : State) (e : Bool), exec (if e then .ecbenc else .ecbdec) s = .next t → t.status.getLsbD 0 = false →
    ∃ data, memRead s.ibuf 0 s.len.toNat = some data ∧
      memRead t.obuf 0 s.len.toNat = some (ecbProcess data s.key.val e) ∧
      (ecbProcess data s.key.val e).length = data.length ∧
      ∀ a, s.len.toNat ≤ a → t.obuf.read a = s.obuf.read a

/-- 44_ecb_framer.md rule R168: the blocks may be transformed in any order, each exactly once; every order leaves the same
`OBUF`. -/
def Obligations.BlockOrderIsFree : Prop :=
  ∀ (K : Schedule) (e : Bool) (data : List Byte) (obuf : Memory) (order : List Nat) (n : Nat),
    obuf.wf = true → order.Perm (List.range n) →
    order.foldl (ecbStore K e data) obuf = (List.range n).foldl (ecbStore K e data) obuf

/-- 44_ecb_framer.md rule R167: an output block is a function of its input block, the key and the mode only, wherever the
block stands and however long the data are. On data whose length is not a multiple of 8, for which 44_ecb_framer.md rule
R161 gives no value, it rests on the model's choice of a total function (log 12). -/
def Obligations.BlocksAreIndependent : Prop :=
  ∀ (data data' : List Byte) (key : Block) (e : Bool) (b b' : Nat),
    b < data.length / 8 → b' < data'.length / 8 → blockBytes data b = blockBytes data' b' →
    blockBytes (ecbProcess data key e) b = blockBytes (ecbProcess data' key e) b'

/-- One block through `IBUF` and `OBUF`, and the same 8 bytes through `DIN` and `DOUT` with the round keys the ECB command
left, give the same 8 bytes (20_memory.md rule R54; 44_ecb_framer.md rule R162). -/
def Obligations.OneBlockEitherWay : Prop :=
  ∀ (s t : State) (e : Bool) (bs : List Byte), s.len = 8#32 →
    exec (if e then .ecbenc else .ecbdec) s = .next t → t.status.getLsbD 0 = false → memRead s.ibuf 0 8 = some bs →
    ∃ u, exec (if e then .encblk else .decblk) { t with din := ⟨bytesToBits 8 bs, true⟩ } = .next u ∧
      memRead t.obuf 0 8 = some (bitsToBytes 8 u.dout.val)

/-- 44_ecb_framer.md rule R170: the round trip at buffer level, in both directions. -/
def Obligations.BufferRoundTrip : Prop :=
  ∀ (data : List Byte) (key : Block), 0 < data.length → data.length % 8 = 0 →
    ecbProcess (ecbProcess data key true) key false = data ∧ ecbProcess (ecbProcess data key false) key true = data

/-- The round trip on the machine: after a successful ECB command, the other command over its output completes, and puts
the first command's input into `OBUF`, with the same round keys (44_ecb_framer.md rules R162, R163, R169 and R170). -/
def Obligations.EcbRoundTripOnMachine : Prop :=
  ∀ (s t : State) (e : Bool) (data : List Byte),
    exec (if e then .ecbenc else .ecbdec) s = .next t → t.status.getLsbD 0 = false →
    memRead t.obuf 0 s.len.toNat = some data →
    ∃ u, exec (if e then .ecbdec else .ecbenc) { t with ibuf := memWrite t.ibuf 0 data } = .next u ∧
      u.status.getLsbD 0 = false ∧ u.rk = t.rk ∧ memRead u.obuf 0 s.len.toNat = memRead s.ibuf 0 s.len.toNat

/-! Outcomes, frames and the whole machine (60_exceptions.md, 10_state.md, 30_encoding.md). -/

/-- A command completes with `Success` exactly when the host has done what 70_reset_and_hazards.md rule R202 asks before
it. -/
def Obligations.ReadyCommandsSucceed : Prop :=
  ∀ (i : Instr) (s : State), Ready i s ↔ ∃ t, exec i s = .next t ∧ t.status.getLsbD 0 = false

/-- When a command faults and with which fault, case by case, and that `Overlap` cannot be produced (60_exceptions.md
rule R187). That `NoSchedule` comes before `UnwrittenOperand` is read from the pseudocode of 43_block_cipher.md rules R147
and R148, and that validation comes before both from 60_exceptions.md rule R185 and 44_ecb_framer.md rules R162 and R163
(log 11). -/
def Obligations.FaultsExactly : Prop :=
  (∀ (i : Instr) (s : State), exec i s = .fault .noSchedule ↔
    (i = .encblk ∨ i = .decblk) ∧ s.status.getLsbD 1 = false) ∧
    (∀ (i : Instr) (s : State), exec i s = .fault .unwrittenOperand ↔
      ((i = .ksched ∧ s.key.written = false) ∨
        (i = .roundf ∧ (s.rin.written = false ∨ s.skin.written = false)) ∨
        ((i = .encblk ∨ i = .decblk) ∧ s.status.getLsbD 1 = true ∧ s.din.written = false) ∨
        ((i = .ecbenc ∨ i = .ecbdec) ∧ EcbPreconditions s ∧
          (s.key.written = false ∨ ¬AllWritten s.ibuf s.len.toNat)))) ∧
    ∀ s : State, step s ≠ .fault .overlap

/-- 60_exceptions.md rule R181: `InvalidInput` is raised by, and only by, a reserved word or an ECB command one of whose
conditions fails. -/
def Obligations.InvalidInputCauses : Prop :=
  ∀ (w : BitVec 8) (s t : State), issue w s = .next t →
    (t.status.getLsbD 0 = true ↔
      (w ∉ legalWords ∨ ((w = 0x08#8 ∨ w = 0x09#8) ∧
        (s.fctl.getLsbD 8 = false ∨ s.fctl.extractLsb' 0 8 ≠ 8#8 ∨ s.len.toInt ≤ 0 ∨ s.len.toNat % 8 ≠ 0 ∨
          ∃ m, Config.bufMax = some m ∧ m < s.len.toNat))))

/-- No step is refused: every command and every access of the host has its meaning (30_encoding.md rules R72 and R79;
10_state.md rule R36). -/
def Obligations.NothingIsRefused : Prop :=
  ∀ (s : State) (r : Refusal), step s ≠ .refused r ∧ ∀ i, exec i s ≠ .refused r

/-- The outcome of an earlier command has no effect on a later one: `ERR` is read by no command and overwritten by each
(10_state.md rule R22; 60_exceptions.md rule R184). -/
def Obligations.ErrHasNoEffect : Prop :=
  ∀ (w : BitVec 8) (s : State) (v : BitVec 8), (∀ i, 1 ≤ i → v.getLsbD i = s.status.getLsbD i) →
    issue w { s with status := v } = issue w s

/-- No command writes an operand register, a control register the host owns, or `IBUF`, nor touches the host's own record
(10_state.md rules R23, R24, R26, R27, R29 and R30; 20_memory.md rule R51). -/
def Obligations.CommandsKeepTheirInputs : Prop :=
  ∀ (i : Instr) (s t : State), exec i s = .next t →
    t.key = s.key ∧ t.din = s.din ∧ t.rin = s.rin ∧ t.skin = s.skin ∧ t.len = s.len ∧ t.fctl = s.fctl ∧
      t.ibuf = s.ibuf ∧ t.pending = s.pending ∧ t.seen = s.seen ∧ t.draws = s.draws

/-- The frames of the commands that touch registers only: what each leaves of the results, the round keys, `STATUS` and
every byte of the buffers (30_encoding.md rule R75; 20_memory.md rule R50). Operands are in
`CommandsKeepTheirInputs`. -/
def Obligations.RegisterCommandFrames : Prop :=
  (∀ s t : State, exec .ksched s = .next t →
    t.dout = s.dout ∧ t.fout = s.fout ∧ (∀ i, 2 ≤ i → t.status.getLsbD i = s.status.getLsbD i) ∧
      ∀ a, t.ibuf.read a = s.ibuf.read a ∧ t.obuf.read a = s.obuf.read a) ∧
    (∀ s t : State, exec .roundf s = .next t →
      t.dout = s.dout ∧ t.rk = s.rk ∧ (∀ i, 1 ≤ i → t.status.getLsbD i = s.status.getLsbD i) ∧
        ∀ a, t.ibuf.read a = s.ibuf.read a ∧ t.obuf.read a = s.obuf.read a) ∧
    ∀ (s t : State) (i : Instr), i = .encblk ∨ i = .decblk → exec i s = .next t →
      t.fout = s.fout ∧ t.rk = s.rk ∧ (∀ i, 1 ≤ i → t.status.getLsbD i = s.status.getLsbD i) ∧
        ∀ a, t.ibuf.read a = s.ibuf.read a ∧ t.obuf.read a = s.obuf.read a

/-- The frame of the ECB commands: `DOUT`, `FOUT` and the reserved bits are unchanged, every byte of `IBUF`, and every
byte of `OBUF` outside `0 .. LEN-1`; on `InvalidInput` all of `OBUF`, the round keys and `RKV` too (30_encoding.md rule
R75; 20_memory.md rule R52; 44_ecb_framer.md rule R164). -/
def Obligations.EcbCommandFrame : Prop :=
  ∀ (s t : State) (i : Instr), i = .ecbenc ∨ i = .ecbdec → exec i s = .next t →
    t.dout = s.dout ∧ t.fout = s.fout ∧ (∀ i, 2 ≤ i → t.status.getLsbD i = s.status.getLsbD i) ∧
      (∀ a, t.ibuf.read a = s.ibuf.read a) ∧ (∀ a, s.len.toNat ≤ a → t.obuf.read a = s.obuf.read a) ∧
      (t.status.getLsbD 0 = true → t.rk = s.rk ∧ t.status.getLsbD 1 = s.status.getLsbD 1 ∧
        ∀ a, t.obuf.read a = s.obuf.read a)

/-- The round-key file changes only by a derivation, to the whole schedule of `KEY`, or by reset (10_state.md rule R31). -/
def Obligations.RoundKeysChangeOnlyByDerivation : Prop :=
  ∀ s t : State, step s = .next t → t.rk ≠ s.rk →
    (∃ (w : BitVec 8) (rest : List Access), s.pending = .wr .cmd w :: rest ∧ w ∈ [0x02#8, 0x08#8, 0x09#8] ∧
      s.key.written = true ∧ t.rk = ks s.key.val ∧ t.status.getLsbD 1 = true ∧ t.status.getLsbD 0 = false) ∨
    ∃ rest, s.pending = .reset :: rest

/-- `RKV` is never cleared except by reset, and set only by a command that derives the schedule of `KEY` (10_state.md rule
R22). -/
def Obligations.RkvClearedOnlyByReset : Prop :=
  ∀ s t : State, step s = .next t →
    (s.status.getLsbD 1 = true → t.status.getLsbD 1 = false → ∃ rest, s.pending = .reset :: rest) ∧
    (s.status.getLsbD 1 = false → t.status.getLsbD 1 = true →
      t.rk = ks s.key.val ∧ ∃ (w : BitVec 8) (rest : List Access),
        s.pending = .wr .cmd w :: rest ∧ w ∈ [0x02#8, 0x08#8, 0x09#8])

/-- The results of a command are a function of the operands the spec lists for it and of nothing else (30_encoding.md rule
R75; 90_conflicts.md C6; 41_key_schedule.md rule R108; 43_block_cipher.md rule R152): from two states with the same
operands, the same command succeeds in both or in neither, and writes the same results. -/
def Obligations.ResultsDependOnOperandsOnly : Prop :=
  ∀ (i : Instr) (s s' t : State), SameOperands i s s' → exec i s = .next t →
    ∃ t', exec i s' = .next t' ∧ t'.status.getLsbD 0 = t.status.getLsbD 0 ∧
      (i = .ksched → t'.rk = t.rk) ∧ (i = .roundf → t'.fout = t.fout) ∧
      (i = .encblk ∨ i = .decblk → t'.dout = t.dout) ∧
      (i = .ecbenc ∨ i = .ecbdec → t.status.getLsbD 0 = false →
        t'.rk = t.rk ∧ ∀ a, a < s.len.toNat → t'.obuf.read a = t.obuf.read a)

/-- Nothing the machine does depends on what an unwritten register holds (10_state.md rule R37): two states that differ
only there take the same step, to states that differ only there, or stop alike. So the reset values the model names for
unwritten registers (log 1) cannot be seen. -/
def Obligations.UnwrittenValuesAreInvisible : Prop :=
  ∀ s s' : State, SameVisible s s' →
    (∀ t, step s = .next t → ∃ t', step s' = .next t' ∧ SameVisible t t') ∧
    ∀ f, step s = .fault f → step s' = .fault f

/-- The invariant holds at reset. -/
def Obligations.InvariantAtReset : Prop := Inv State.reset

/-- Every step keeps the invariant: reserved fields read as 0, the buffers stay in canonical form and within capacity,
`RKV` means that `RK` is the schedule of some key, and results that need a schedule are there only with one
(10_state.md rules R22, R25, R30 and R31; 20_memory.md rules R51 and R52). -/
def Obligations.StepKeepsInvariant : Prop :=
  ∀ s t : State, Inv s → step s = .next t → Inv t
end

