-- ==== Sys2Proof/Laws/Memory.lean ====
section
/-! SUPPORT. The laws of the buffers: a read after a write, what a write leaves alone, and that every operation keeps the
canonical form. -/

namespace Sys2Proof.Machine

/-- A read after a write to the same offset gives the byte written. -/
theorem read_write_same (m : Memory) (a : Nat) (b : Byte) : (m.write a b).read a = some b := by
  induction m with
  | nil => simp [Memory.write, Memory.read]
  | cons c rest ih =>
    obtain ⟨x, v⟩ := c
    unfold Memory.write
    split
    · simp [Memory.read]
    · split
      · simp [Memory.read]
      · rename_i h1 h2
        simp [Memory.read, Ne.symm h2, ih]

/-- A write leaves every other offset alone. -/
theorem read_write_other (m : Memory) (a a' : Nat) (b : Byte) (h : a' ≠ a) : (m.write a b).read a' = m.read a' := by
  induction m with
  | nil => simp [Memory.write, Memory.read, Ne.symm h]
  | cons c rest ih =>
    obtain ⟨x, v⟩ := c
    unfold Memory.write
    split
    · simp [Memory.read, Ne.symm h]
    · split
      · rename_i h1 h2
        subst h2
        simp [Memory.read, Ne.symm h]
      · simp [Memory.read, ih]

/-- A write lists the offset written and the offsets listed before, no other. -/
theorem mem_write (m : Memory) (a : Nat) (b : Byte) (c : Host.Cell) (h : c ∈ m.write a b) : c.1 = a ∨ c ∈ m := by
  induction m with
  | nil => simp_all [Memory.write]
  | cons d rest ih =>
    obtain ⟨x, v⟩ := d
    unfold Memory.write at h
    split at h
    · rcases List.mem_cons.1 h with rfl | h
      · exact .inl rfl
      · exact .inr h
    · split at h
      · rcases List.mem_cons.1 h with rfl | h
        · exact .inl rfl
        · exact .inr (List.mem_cons_of_mem _ h)
      · rcases List.mem_cons.1 h with rfl | h
        · exact .inr List.mem_cons_self
        · exact (ih h).imp id (List.mem_cons_of_mem _)

/-- A write keeps the canonical form. -/
theorem write_wf (m : Memory) (a : Nat) (b : Byte) (h : m.wf = true) : (m.write a b).wf = true := by
  simp only [Memory.wf, decide_eq_true_eq] at h ⊢
  induction m with
  | nil => simp [Memory.write]
  | cons d rest ih =>
    obtain ⟨x, v⟩ := d
    obtain ⟨h1, h2⟩ := List.pairwise_cons.1 h
    unfold Memory.write
    split
    · rename_i hlt
      refine List.pairwise_cons.2 ⟨fun c hc => ?_, h⟩
      rcases List.mem_cons.1 hc with rfl | hc
      · exact hlt
      · exact Nat.lt_trans hlt (h1 c hc)
    · split
      · rename_i hne heq
        exact List.pairwise_cons.2 ⟨fun c hc => heq ▸ h1 c hc, h2⟩
      · rename_i hnl hne
        refine List.pairwise_cons.2 ⟨fun c hc => ?_, ih h2⟩
        rcases mem_write rest a b c hc with hc | hc
        · simp only [hc]; omega
        · exact h1 c hc

/-- A wide write keeps the canonical form. -/
theorem memWrite_wf (bs : List Byte) (m : Memory) (a : Nat) (h : m.wf = true) : (memWrite m a bs).wf = true := by
  induction bs generalizing m a with
  | nil => exact h
  | cons b bs ih => exact ih _ _ (write_wf m a b h)

/-- A wide write lists only offsets of its range and offsets listed before. -/
theorem mem_memWrite (bs : List Byte) (m : Memory) (a : Nat) (c : Host.Cell) (h : c ∈ memWrite m a bs) :
    (a ≤ c.1 ∧ c.1 < a + bs.length) ∨ c ∈ m := by
  induction bs generalizing m a with
  | nil => exact .inr h
  | cons b bs ih =>
    rcases ih _ _ h with h | h
    · exact .inl (by simp only [List.length_cons]; omega)
    · rcases mem_write m a b c h with h | h
      · exact .inl (by simp only [List.length_cons]; omega)
      · exact .inr h

/-- A wide write leaves every offset outside its range alone. -/
theorem read_memWrite_outside (bs : List Byte) (m : Memory) (a x : Nat) (h : x < a ∨ a + bs.length ≤ x) :
    (memWrite m a bs).read x = m.read x := by
  induction bs generalizing m a with
  | nil => rfl
  | cons b bs ih =>
    simp only [List.length_cons] at h
    rw [memWrite, ih _ _ (by omega), read_write_other _ _ _ _ (by omega)]

/-- A wide write puts byte `k` at offset `a + k`. -/
theorem read_memWrite_inside (bs : List Byte) (m : Memory) (a k : Nat) (h : k < bs.length) :
    (memWrite m a bs).read (a + k) = some bs[k] := by
  induction bs generalizing m a k with
  | nil => simp at h
  | cons b bs ih =>
    rw [memWrite]
    cases k with
    | zero => rw [read_memWrite_outside _ _ _ _ (by omega), Nat.add_zero, read_write_same]; rfl
    | succ k =>
      rw [show a + (k + 1) = a + 1 + k by omega, ih _ _ _ (by simpa using h)]
      simp

/-- A wide read, one byte further. -/
theorem memRead_succ (m : Memory) (a n : Nat) :
    memRead m a (n + 1) = (m.read a).bind fun b => (memRead m (a + 1) n).map fun bs => b :: bs := by
  simp only [memRead]
  cases m.read a <;> cases memRead m (a + 1) n <;> rfl

/-- What a wide read answers: `n` bytes, each the byte at its offset. -/
theorem memRead_eq_some (m : Memory) (a n : Nat) (bs : List Byte) :
    memRead m a n = some bs ↔ bs.length = n ∧ ∀ k (h : k < bs.length), m.read (a + k) = some bs[k] := by
  induction n generalizing a bs with
  | zero =>
    simp only [memRead, Option.some.injEq]
    constructor
    · rintro rfl; simp
    · rintro ⟨h, -⟩; exact (List.eq_nil_of_length_eq_zero h).symm
  | succ n ih =>
    rw [memRead_succ]
    cases bs with
    | nil => cases m.read a <;> cases memRead m (a + 1) n <;> simp
    | cons b bs =>
      have hstep : ((m.read a).bind fun b => (memRead m (a + 1) n).map fun bs => b :: bs) = some (b :: bs) ↔
          m.read a = some b ∧ memRead m (a + 1) n = some bs := by
        cases m.read a <;> cases memRead m (a + 1) n <;> simp
      rw [hstep, ih]
      constructor
      · rintro ⟨h1, h2, h3⟩
        refine ⟨by simp [h2], fun k hk => ?_⟩
        cases k with
        | zero => exact h1
        | succ k =>
          rw [show a + (k + 1) = a + 1 + k by omega, h3 k (by simpa using hk)]
          rfl
      · rintro ⟨h1, h2⟩
        refine ⟨h2 0 (by simp), by simpa using h1, fun k hk => ?_⟩
        rw [show a + 1 + k = a + (k + 1) by omega, h2 (k + 1) (by simpa using hk)]
        rfl

/-- A wide read answers exactly when every byte of its range is written. -/
theorem memRead_isSome (m : Memory) (a n : Nat) :
    (memRead m a n).isSome = true ↔ ∀ k, k < n → (m.read (a + k)).isSome = true := by
  induction n generalizing a with
  | zero => simp [memRead]
  | succ n ih =>
    have hstep : (memRead m a (n + 1)).isSome = true ↔
        (m.read a).isSome = true ∧ (memRead m (a + 1) n).isSome = true := by
      rw [memRead_succ]
      cases m.read a <;> cases memRead m (a + 1) n <;> simp
    rw [hstep, ih]
    constructor
    · rintro ⟨h1, h2⟩ k hk
      cases k with
      | zero => exact h1
      | succ k => rw [show a + (k + 1) = a + 1 + k by omega]; exact h2 k (by omega)
    · intro h
      exact ⟨h 0 (by omega), fun k hk => by rw [show a + 1 + k = a + (k + 1) by omega]; exact h (k + 1) (by omega)⟩

/-- A wide read sees only the offsets of its range. -/
theorem memRead_congr (m m' : Memory) (a n : Nat) (h : ∀ x, a ≤ x → x < a + n → m.read x = m'.read x) :
    memRead m a n = memRead m' a n := by
  induction n generalizing a with
  | zero => rfl
  | succ n ih => simp only [memRead, h a (by omega) (by omega), ih (a + 1) fun x h1 h2 => h x (by omega) (by omega)]

/-- A wide read of what a wide write put there. -/
theorem memRead_memWrite (bs : List Byte) (m : Memory) (a : Nat) : memRead (memWrite m a bs) a bs.length = some bs := by
  rw [memRead_eq_some]
  exact ⟨rfl, fun k hk => read_memWrite_inside bs m a k hk⟩

/-- Two buffers in canonical form that read alike are equal. -/
theorem memory_ext (m m' : Memory) (h : m.wf = true) (h' : m'.wf = true) (he : ∀ a, m.read a = m'.read a) : m = m' := by
  have none_of_lt : ∀ (l : Memory) (a : Nat), (∀ c ∈ l, a < c.1) → l.read a = none := by
    intro l a hl
    induction l with
    | nil => rfl
    | cons c l ih =>
      obtain ⟨x, v⟩ := c
      have hx : a < x := hl (x, v) List.mem_cons_self
      simp only [Memory.read, if_neg (show ¬x = a by omega)]
      exact ih fun c hc => hl c (List.mem_cons_of_mem _ hc)
  simp only [Memory.wf, decide_eq_true_eq] at h h'
  induction m generalizing m' with
  | nil =>
    cases m' with
    | nil => rfl
    | cons c l =>
      obtain ⟨x, v⟩ := c
      have := he x
      simp [Memory.read] at this
  | cons c l ih =>
    obtain ⟨x, v⟩ := c
    obtain ⟨h1, h2⟩ := List.pairwise_cons.1 h
    cases m' with
    | nil =>
      have := he x
      simp [Memory.read] at this
    | cons c' l' =>
      obtain ⟨y, w⟩ := c'
      obtain ⟨h1', h2'⟩ := List.pairwise_cons.1 h'
      have hxy : x = y := by
        by_contra hne
        rcases Nat.lt_or_gt_of_ne hne with hlt | hgt
        · have hx := he x
          simp only [Memory.read, if_true, if_neg (show ¬y = x by omega)] at hx
          rw [none_of_lt l' x fun c hc => Nat.lt_trans hlt (h1' c hc)] at hx
          simp at hx
        · have hy := he y
          simp only [Memory.read, if_true, if_neg (show ¬x = y by omega)] at hy
          rw [none_of_lt l y fun c hc => Nat.lt_trans hgt (h1 c hc)] at hy
          simp at hy
      subst hxy
      have hv := he x
      simp only [Memory.read, if_true, Option.some.injEq] at hv
      subst hv
      refine congrArg _ (ih l' (fun a => ?_) h2 h2')
      have ha := he a
      simp only [Memory.read] at ha
      by_cases hax : x = a
      · subst hax
        rw [none_of_lt l x h1, none_of_lt l' x h1']
      · simpa [hax] using ha

/-- Every capacity holds at least one block (00_scope.md rule R8: at least 8). -/
theorem withinCapacity_block (n : Nat) (h : n ≤ 8) : withinCapacity n = true := by
  unfold withinCapacity Config.bufMax
  cases Config.bufBlocks with
  | none => rfl
  | some k => simp; omega

/-- What the capacity check says. -/
theorem withinCapacity_iff (n : Nat) : withinCapacity n = true ↔ ∀ m, Config.bufMax = some m → n ≤ m := by
  unfold withinCapacity
  cases Config.bufMax with
  | none => simp
  | some m => simp

end Sys2Proof.Machine
end

