-- ==== Sys2Proof/Laws/State.lean ====
section
/-! SUPPORT. One lemma per field per update of State, each true by rfl, and the fields of `STATUS` after the operations
that write it. Later proofs rewrite with these and unfold no record update. -/

namespace Sys2Proof.Machine

variable (s : State)

section setStatus
variable (v : BitVec 8)
@[simp] theorem State.setStatus_status : (s.setStatus v).status = v := rfl
@[simp] theorem State.setStatus_len : (s.setStatus v).len = s.len := rfl
@[simp] theorem State.setStatus_fctl : (s.setStatus v).fctl = s.fctl := rfl
@[simp] theorem State.setStatus_key : (s.setStatus v).key = s.key := rfl
@[simp] theorem State.setStatus_din : (s.setStatus v).din = s.din := rfl
@[simp] theorem State.setStatus_dout : (s.setStatus v).dout = s.dout := rfl
@[simp] theorem State.setStatus_rin : (s.setStatus v).rin = s.rin := rfl
@[simp] theorem State.setStatus_skin : (s.setStatus v).skin = s.skin := rfl
@[simp] theorem State.setStatus_fout : (s.setStatus v).fout = s.fout := rfl
@[simp] theorem State.setStatus_rk : (s.setStatus v).rk = s.rk := rfl
@[simp] theorem State.setStatus_ibuf : (s.setStatus v).ibuf = s.ibuf := rfl
@[simp] theorem State.setStatus_obuf : (s.setStatus v).obuf = s.obuf := rfl
@[simp] theorem State.setStatus_pending : (s.setStatus v).pending = s.pending := rfl
@[simp] theorem State.setStatus_seen : (s.setStatus v).seen = s.seen := rfl
@[simp] theorem State.setStatus_draws : (s.setStatus v).draws = s.draws := rfl
end setStatus

section setLen
variable (v : BitVec 32)
@[simp] theorem State.setLen_status : (s.setLen v).status = s.status := rfl
@[simp] theorem State.setLen_len : (s.setLen v).len = v := rfl
@[simp] theorem State.setLen_fctl : (s.setLen v).fctl = s.fctl := rfl
@[simp] theorem State.setLen_key : (s.setLen v).key = s.key := rfl
@[simp] theorem State.setLen_din : (s.setLen v).din = s.din := rfl
@[simp] theorem State.setLen_dout : (s.setLen v).dout = s.dout := rfl
@[simp] theorem State.setLen_rin : (s.setLen v).rin = s.rin := rfl
@[simp] theorem State.setLen_skin : (s.setLen v).skin = s.skin := rfl
@[simp] theorem State.setLen_fout : (s.setLen v).fout = s.fout := rfl
@[simp] theorem State.setLen_rk : (s.setLen v).rk = s.rk := rfl
@[simp] theorem State.setLen_ibuf : (s.setLen v).ibuf = s.ibuf := rfl
@[simp] theorem State.setLen_obuf : (s.setLen v).obuf = s.obuf := rfl
@[simp] theorem State.setLen_pending : (s.setLen v).pending = s.pending := rfl
@[simp] theorem State.setLen_seen : (s.setLen v).seen = s.seen := rfl
@[simp] theorem State.setLen_draws : (s.setLen v).draws = s.draws := rfl
end setLen

section setFctl
variable (v : BitVec 16)
@[simp] theorem State.setFctl_status : (s.setFctl v).status = s.status := rfl
@[simp] theorem State.setFctl_len : (s.setFctl v).len = s.len := rfl
@[simp] theorem State.setFctl_fctl : (s.setFctl v).fctl = v &&& fctlMask := rfl
@[simp] theorem State.setFctl_key : (s.setFctl v).key = s.key := rfl
@[simp] theorem State.setFctl_din : (s.setFctl v).din = s.din := rfl
@[simp] theorem State.setFctl_dout : (s.setFctl v).dout = s.dout := rfl
@[simp] theorem State.setFctl_rin : (s.setFctl v).rin = s.rin := rfl
@[simp] theorem State.setFctl_skin : (s.setFctl v).skin = s.skin := rfl
@[simp] theorem State.setFctl_fout : (s.setFctl v).fout = s.fout := rfl
@[simp] theorem State.setFctl_rk : (s.setFctl v).rk = s.rk := rfl
@[simp] theorem State.setFctl_ibuf : (s.setFctl v).ibuf = s.ibuf := rfl
@[simp] theorem State.setFctl_obuf : (s.setFctl v).obuf = s.obuf := rfl
@[simp] theorem State.setFctl_pending : (s.setFctl v).pending = s.pending := rfl
@[simp] theorem State.setFctl_seen : (s.setFctl v).seen = s.seen := rfl
@[simp] theorem State.setFctl_draws : (s.setFctl v).draws = s.draws := rfl
end setFctl

section setKey
variable (v : BitVec 64)
@[simp] theorem State.setKey_status : (s.setKey v).status = s.status := rfl
@[simp] theorem State.setKey_len : (s.setKey v).len = s.len := rfl
@[simp] theorem State.setKey_fctl : (s.setKey v).fctl = s.fctl := rfl
@[simp] theorem State.setKey_key : (s.setKey v).key = markedWith v := rfl
@[simp] theorem State.setKey_din : (s.setKey v).din = s.din := rfl
@[simp] theorem State.setKey_dout : (s.setKey v).dout = s.dout := rfl
@[simp] theorem State.setKey_rin : (s.setKey v).rin = s.rin := rfl
@[simp] theorem State.setKey_skin : (s.setKey v).skin = s.skin := rfl
@[simp] theorem State.setKey_fout : (s.setKey v).fout = s.fout := rfl
@[simp] theorem State.setKey_rk : (s.setKey v).rk = s.rk := rfl
@[simp] theorem State.setKey_ibuf : (s.setKey v).ibuf = s.ibuf := rfl
@[simp] theorem State.setKey_obuf : (s.setKey v).obuf = s.obuf := rfl
@[simp] theorem State.setKey_pending : (s.setKey v).pending = s.pending := rfl
@[simp] theorem State.setKey_seen : (s.setKey v).seen = s.seen := rfl
@[simp] theorem State.setKey_draws : (s.setKey v).draws = s.draws := rfl
end setKey

section setDin
variable (v : BitVec 64)
@[simp] theorem State.setDin_status : (s.setDin v).status = s.status := rfl
@[simp] theorem State.setDin_len : (s.setDin v).len = s.len := rfl
@[simp] theorem State.setDin_fctl : (s.setDin v).fctl = s.fctl := rfl
@[simp] theorem State.setDin_key : (s.setDin v).key = s.key := rfl
@[simp] theorem State.setDin_din : (s.setDin v).din = markedWith v := rfl
@[simp] theorem State.setDin_dout : (s.setDin v).dout = s.dout := rfl
@[simp] theorem State.setDin_rin : (s.setDin v).rin = s.rin := rfl
@[simp] theorem State.setDin_skin : (s.setDin v).skin = s.skin := rfl
@[simp] theorem State.setDin_fout : (s.setDin v).fout = s.fout := rfl
@[simp] theorem State.setDin_rk : (s.setDin v).rk = s.rk := rfl
@[simp] theorem State.setDin_ibuf : (s.setDin v).ibuf = s.ibuf := rfl
@[simp] theorem State.setDin_obuf : (s.setDin v).obuf = s.obuf := rfl
@[simp] theorem State.setDin_pending : (s.setDin v).pending = s.pending := rfl
@[simp] theorem State.setDin_seen : (s.setDin v).seen = s.seen := rfl
@[simp] theorem State.setDin_draws : (s.setDin v).draws = s.draws := rfl
end setDin

section setDout
variable (v : BitVec 64)
@[simp] theorem State.setDout_status : (s.setDout v).status = s.status := rfl
@[simp] theorem State.setDout_len : (s.setDout v).len = s.len := rfl
@[simp] theorem State.setDout_fctl : (s.setDout v).fctl = s.fctl := rfl
@[simp] theorem State.setDout_key : (s.setDout v).key = s.key := rfl
@[simp] theorem State.setDout_din : (s.setDout v).din = s.din := rfl
@[simp] theorem State.setDout_dout : (s.setDout v).dout = markedWith v := rfl
@[simp] theorem State.setDout_rin : (s.setDout v).rin = s.rin := rfl
@[simp] theorem State.setDout_skin : (s.setDout v).skin = s.skin := rfl
@[simp] theorem State.setDout_fout : (s.setDout v).fout = s.fout := rfl
@[simp] theorem State.setDout_rk : (s.setDout v).rk = s.rk := rfl
@[simp] theorem State.setDout_ibuf : (s.setDout v).ibuf = s.ibuf := rfl
@[simp] theorem State.setDout_obuf : (s.setDout v).obuf = s.obuf := rfl
@[simp] theorem State.setDout_pending : (s.setDout v).pending = s.pending := rfl
@[simp] theorem State.setDout_seen : (s.setDout v).seen = s.seen := rfl
@[simp] theorem State.setDout_draws : (s.setDout v).draws = s.draws := rfl
end setDout

section setRin
variable (v : BitVec 32)
@[simp] theorem State.setRin_status : (s.setRin v).status = s.status := rfl
@[simp] theorem State.setRin_len : (s.setRin v).len = s.len := rfl
@[simp] theorem State.setRin_fctl : (s.setRin v).fctl = s.fctl := rfl
@[simp] theorem State.setRin_key : (s.setRin v).key = s.key := rfl
@[simp] theorem State.setRin_din : (s.setRin v).din = s.din := rfl
@[simp] theorem State.setRin_dout : (s.setRin v).dout = s.dout := rfl
@[simp] theorem State.setRin_rin : (s.setRin v).rin = markedWith v := rfl
@[simp] theorem State.setRin_skin : (s.setRin v).skin = s.skin := rfl
@[simp] theorem State.setRin_fout : (s.setRin v).fout = s.fout := rfl
@[simp] theorem State.setRin_rk : (s.setRin v).rk = s.rk := rfl
@[simp] theorem State.setRin_ibuf : (s.setRin v).ibuf = s.ibuf := rfl
@[simp] theorem State.setRin_obuf : (s.setRin v).obuf = s.obuf := rfl
@[simp] theorem State.setRin_pending : (s.setRin v).pending = s.pending := rfl
@[simp] theorem State.setRin_seen : (s.setRin v).seen = s.seen := rfl
@[simp] theorem State.setRin_draws : (s.setRin v).draws = s.draws := rfl
end setRin

section setSkin
variable (v : BitVec 48)
@[simp] theorem State.setSkin_status : (s.setSkin v).status = s.status := rfl
@[simp] theorem State.setSkin_len : (s.setSkin v).len = s.len := rfl
@[simp] theorem State.setSkin_fctl : (s.setSkin v).fctl = s.fctl := rfl
@[simp] theorem State.setSkin_key : (s.setSkin v).key = s.key := rfl
@[simp] theorem State.setSkin_din : (s.setSkin v).din = s.din := rfl
@[simp] theorem State.setSkin_dout : (s.setSkin v).dout = s.dout := rfl
@[simp] theorem State.setSkin_rin : (s.setSkin v).rin = s.rin := rfl
@[simp] theorem State.setSkin_skin : (s.setSkin v).skin = markedWith v := rfl
@[simp] theorem State.setSkin_fout : (s.setSkin v).fout = s.fout := rfl
@[simp] theorem State.setSkin_rk : (s.setSkin v).rk = s.rk := rfl
@[simp] theorem State.setSkin_ibuf : (s.setSkin v).ibuf = s.ibuf := rfl
@[simp] theorem State.setSkin_obuf : (s.setSkin v).obuf = s.obuf := rfl
@[simp] theorem State.setSkin_pending : (s.setSkin v).pending = s.pending := rfl
@[simp] theorem State.setSkin_seen : (s.setSkin v).seen = s.seen := rfl
@[simp] theorem State.setSkin_draws : (s.setSkin v).draws = s.draws := rfl
end setSkin

section setFout
variable (v : BitVec 32)
@[simp] theorem State.setFout_status : (s.setFout v).status = s.status := rfl
@[simp] theorem State.setFout_len : (s.setFout v).len = s.len := rfl
@[simp] theorem State.setFout_fctl : (s.setFout v).fctl = s.fctl := rfl
@[simp] theorem State.setFout_key : (s.setFout v).key = s.key := rfl
@[simp] theorem State.setFout_din : (s.setFout v).din = s.din := rfl
@[simp] theorem State.setFout_dout : (s.setFout v).dout = s.dout := rfl
@[simp] theorem State.setFout_rin : (s.setFout v).rin = s.rin := rfl
@[simp] theorem State.setFout_skin : (s.setFout v).skin = s.skin := rfl
@[simp] theorem State.setFout_fout : (s.setFout v).fout = markedWith v := rfl
@[simp] theorem State.setFout_rk : (s.setFout v).rk = s.rk := rfl
@[simp] theorem State.setFout_ibuf : (s.setFout v).ibuf = s.ibuf := rfl
@[simp] theorem State.setFout_obuf : (s.setFout v).obuf = s.obuf := rfl
@[simp] theorem State.setFout_pending : (s.setFout v).pending = s.pending := rfl
@[simp] theorem State.setFout_seen : (s.setFout v).seen = s.seen := rfl
@[simp] theorem State.setFout_draws : (s.setFout v).draws = s.draws := rfl
end setFout

section setRk
variable (v : Schedule)
@[simp] theorem State.setRk_status : (s.setRk v).status = s.status := rfl
@[simp] theorem State.setRk_len : (s.setRk v).len = s.len := rfl
@[simp] theorem State.setRk_fctl : (s.setRk v).fctl = s.fctl := rfl
@[simp] theorem State.setRk_key : (s.setRk v).key = s.key := rfl
@[simp] theorem State.setRk_din : (s.setRk v).din = s.din := rfl
@[simp] theorem State.setRk_dout : (s.setRk v).dout = s.dout := rfl
@[simp] theorem State.setRk_rin : (s.setRk v).rin = s.rin := rfl
@[simp] theorem State.setRk_skin : (s.setRk v).skin = s.skin := rfl
@[simp] theorem State.setRk_fout : (s.setRk v).fout = s.fout := rfl
@[simp] theorem State.setRk_rk : (s.setRk v).rk = v := rfl
@[simp] theorem State.setRk_ibuf : (s.setRk v).ibuf = s.ibuf := rfl
@[simp] theorem State.setRk_obuf : (s.setRk v).obuf = s.obuf := rfl
@[simp] theorem State.setRk_pending : (s.setRk v).pending = s.pending := rfl
@[simp] theorem State.setRk_seen : (s.setRk v).seen = s.seen := rfl
@[simp] theorem State.setRk_draws : (s.setRk v).draws = s.draws := rfl
end setRk

section setIbuf
variable (v : Memory)
@[simp] theorem State.setIbuf_status : (s.setIbuf v).status = s.status := rfl
@[simp] theorem State.setIbuf_len : (s.setIbuf v).len = s.len := rfl
@[simp] theorem State.setIbuf_fctl : (s.setIbuf v).fctl = s.fctl := rfl
@[simp] theorem State.setIbuf_key : (s.setIbuf v).key = s.key := rfl
@[simp] theorem State.setIbuf_din : (s.setIbuf v).din = s.din := rfl
@[simp] theorem State.setIbuf_dout : (s.setIbuf v).dout = s.dout := rfl
@[simp] theorem State.setIbuf_rin : (s.setIbuf v).rin = s.rin := rfl
@[simp] theorem State.setIbuf_skin : (s.setIbuf v).skin = s.skin := rfl
@[simp] theorem State.setIbuf_fout : (s.setIbuf v).fout = s.fout := rfl
@[simp] theorem State.setIbuf_rk : (s.setIbuf v).rk = s.rk := rfl
@[simp] theorem State.setIbuf_ibuf : (s.setIbuf v).ibuf = v := rfl
@[simp] theorem State.setIbuf_obuf : (s.setIbuf v).obuf = s.obuf := rfl
@[simp] theorem State.setIbuf_pending : (s.setIbuf v).pending = s.pending := rfl
@[simp] theorem State.setIbuf_seen : (s.setIbuf v).seen = s.seen := rfl
@[simp] theorem State.setIbuf_draws : (s.setIbuf v).draws = s.draws := rfl
end setIbuf

section setObuf
variable (v : Memory)
@[simp] theorem State.setObuf_status : (s.setObuf v).status = s.status := rfl
@[simp] theorem State.setObuf_len : (s.setObuf v).len = s.len := rfl
@[simp] theorem State.setObuf_fctl : (s.setObuf v).fctl = s.fctl := rfl
@[simp] theorem State.setObuf_key : (s.setObuf v).key = s.key := rfl
@[simp] theorem State.setObuf_din : (s.setObuf v).din = s.din := rfl
@[simp] theorem State.setObuf_dout : (s.setObuf v).dout = s.dout := rfl
@[simp] theorem State.setObuf_rin : (s.setObuf v).rin = s.rin := rfl
@[simp] theorem State.setObuf_skin : (s.setObuf v).skin = s.skin := rfl
@[simp] theorem State.setObuf_fout : (s.setObuf v).fout = s.fout := rfl
@[simp] theorem State.setObuf_rk : (s.setObuf v).rk = s.rk := rfl
@[simp] theorem State.setObuf_ibuf : (s.setObuf v).ibuf = s.ibuf := rfl
@[simp] theorem State.setObuf_obuf : (s.setObuf v).obuf = v := rfl
@[simp] theorem State.setObuf_pending : (s.setObuf v).pending = s.pending := rfl
@[simp] theorem State.setObuf_seen : (s.setObuf v).seen = s.seen := rfl
@[simp] theorem State.setObuf_draws : (s.setObuf v).draws = s.draws := rfl
end setObuf

section setPending
variable (v : List Access)
@[simp] theorem State.setPending_status : (s.setPending v).status = s.status := rfl
@[simp] theorem State.setPending_len : (s.setPending v).len = s.len := rfl
@[simp] theorem State.setPending_fctl : (s.setPending v).fctl = s.fctl := rfl
@[simp] theorem State.setPending_key : (s.setPending v).key = s.key := rfl
@[simp] theorem State.setPending_din : (s.setPending v).din = s.din := rfl
@[simp] theorem State.setPending_dout : (s.setPending v).dout = s.dout := rfl
@[simp] theorem State.setPending_rin : (s.setPending v).rin = s.rin := rfl
@[simp] theorem State.setPending_skin : (s.setPending v).skin = s.skin := rfl
@[simp] theorem State.setPending_fout : (s.setPending v).fout = s.fout := rfl
@[simp] theorem State.setPending_rk : (s.setPending v).rk = s.rk := rfl
@[simp] theorem State.setPending_ibuf : (s.setPending v).ibuf = s.ibuf := rfl
@[simp] theorem State.setPending_obuf : (s.setPending v).obuf = s.obuf := rfl
@[simp] theorem State.setPending_pending : (s.setPending v).pending = v := rfl
@[simp] theorem State.setPending_seen : (s.setPending v).seen = s.seen := rfl
@[simp] theorem State.setPending_draws : (s.setPending v).draws = s.draws := rfl
end setPending

section addReading
variable (r : Reading)
@[simp] theorem State.addReading_status : (s.addReading r).status = s.status := rfl
@[simp] theorem State.addReading_len : (s.addReading r).len = s.len := rfl
@[simp] theorem State.addReading_fctl : (s.addReading r).fctl = s.fctl := rfl
@[simp] theorem State.addReading_key : (s.addReading r).key = s.key := rfl
@[simp] theorem State.addReading_din : (s.addReading r).din = s.din := rfl
@[simp] theorem State.addReading_dout : (s.addReading r).dout = s.dout := rfl
@[simp] theorem State.addReading_rin : (s.addReading r).rin = s.rin := rfl
@[simp] theorem State.addReading_skin : (s.addReading r).skin = s.skin := rfl
@[simp] theorem State.addReading_fout : (s.addReading r).fout = s.fout := rfl
@[simp] theorem State.addReading_rk : (s.addReading r).rk = s.rk := rfl
@[simp] theorem State.addReading_ibuf : (s.addReading r).ibuf = s.ibuf := rfl
@[simp] theorem State.addReading_obuf : (s.addReading r).obuf = s.obuf := rfl
@[simp] theorem State.addReading_pending : (s.addReading r).pending = s.pending := rfl
@[simp] theorem State.addReading_seen : (s.addReading r).seen = r :: s.seen := rfl
@[simp] theorem State.addReading_draws : (s.addReading r).draws = s.draws + 1 := rfl
end addReading

section succeed
@[simp] theorem State.succeed_status : s.succeed.status = withErr false s.status := rfl
@[simp] theorem State.succeed_len : s.succeed.len = s.len := rfl
@[simp] theorem State.succeed_fctl : s.succeed.fctl = s.fctl := rfl
@[simp] theorem State.succeed_key : s.succeed.key = s.key := rfl
@[simp] theorem State.succeed_din : s.succeed.din = s.din := rfl
@[simp] theorem State.succeed_dout : s.succeed.dout = s.dout := rfl
@[simp] theorem State.succeed_rin : s.succeed.rin = s.rin := rfl
@[simp] theorem State.succeed_skin : s.succeed.skin = s.skin := rfl
@[simp] theorem State.succeed_fout : s.succeed.fout = s.fout := rfl
@[simp] theorem State.succeed_rk : s.succeed.rk = s.rk := rfl
@[simp] theorem State.succeed_ibuf : s.succeed.ibuf = s.ibuf := rfl
@[simp] theorem State.succeed_obuf : s.succeed.obuf = s.obuf := rfl
@[simp] theorem State.succeed_pending : s.succeed.pending = s.pending := rfl
@[simp] theorem State.succeed_seen : s.succeed.seen = s.seen := rfl
@[simp] theorem State.succeed_draws : s.succeed.draws = s.draws := rfl
end succeed

section raiseInvalidInput
@[simp] theorem State.raiseInvalidInput_status : s.raiseInvalidInput.status = withErr true s.status := rfl
@[simp] theorem State.raiseInvalidInput_len : s.raiseInvalidInput.len = s.len := rfl
@[simp] theorem State.raiseInvalidInput_fctl : s.raiseInvalidInput.fctl = s.fctl := rfl
@[simp] theorem State.raiseInvalidInput_key : s.raiseInvalidInput.key = s.key := rfl
@[simp] theorem State.raiseInvalidInput_din : s.raiseInvalidInput.din = s.din := rfl
@[simp] theorem State.raiseInvalidInput_dout : s.raiseInvalidInput.dout = s.dout := rfl
@[simp] theorem State.raiseInvalidInput_rin : s.raiseInvalidInput.rin = s.rin := rfl
@[simp] theorem State.raiseInvalidInput_skin : s.raiseInvalidInput.skin = s.skin := rfl
@[simp] theorem State.raiseInvalidInput_fout : s.raiseInvalidInput.fout = s.fout := rfl
@[simp] theorem State.raiseInvalidInput_rk : s.raiseInvalidInput.rk = s.rk := rfl
@[simp] theorem State.raiseInvalidInput_ibuf : s.raiseInvalidInput.ibuf = s.ibuf := rfl
@[simp] theorem State.raiseInvalidInput_obuf : s.raiseInvalidInput.obuf = s.obuf := rfl
@[simp] theorem State.raiseInvalidInput_pending : s.raiseInvalidInput.pending = s.pending := rfl
@[simp] theorem State.raiseInvalidInput_seen : s.raiseInvalidInput.seen = s.seen := rfl
@[simp] theorem State.raiseInvalidInput_draws : s.raiseInvalidInput.draws = s.draws := rfl
end raiseInvalidInput

section deriveRoundKeys
variable (key : Block)
@[simp] theorem State.deriveRoundKeys_status : (s.deriveRoundKeys key).status = withRkv s.status := rfl
@[simp] theorem State.deriveRoundKeys_len : (s.deriveRoundKeys key).len = s.len := rfl
@[simp] theorem State.deriveRoundKeys_fctl : (s.deriveRoundKeys key).fctl = s.fctl := rfl
@[simp] theorem State.deriveRoundKeys_key : (s.deriveRoundKeys key).key = s.key := rfl
@[simp] theorem State.deriveRoundKeys_din : (s.deriveRoundKeys key).din = s.din := rfl
@[simp] theorem State.deriveRoundKeys_dout : (s.deriveRoundKeys key).dout = s.dout := rfl
@[simp] theorem State.deriveRoundKeys_rin : (s.deriveRoundKeys key).rin = s.rin := rfl
@[simp] theorem State.deriveRoundKeys_skin : (s.deriveRoundKeys key).skin = s.skin := rfl
@[simp] theorem State.deriveRoundKeys_fout : (s.deriveRoundKeys key).fout = s.fout := rfl
@[simp] theorem State.deriveRoundKeys_rk : (s.deriveRoundKeys key).rk = ks key := rfl
@[simp] theorem State.deriveRoundKeys_ibuf : (s.deriveRoundKeys key).ibuf = s.ibuf := rfl
@[simp] theorem State.deriveRoundKeys_obuf : (s.deriveRoundKeys key).obuf = s.obuf := rfl
@[simp] theorem State.deriveRoundKeys_pending : (s.deriveRoundKeys key).pending = s.pending := rfl
@[simp] theorem State.deriveRoundKeys_seen : (s.deriveRoundKeys key).seen = s.seen := rfl
@[simp] theorem State.deriveRoundKeys_draws : (s.deriveRoundKeys key).draws = s.draws := rfl
end deriveRoundKeys

@[simp] theorem markedWith_val {w : Nat} (v : BitVec w) : (markedWith v).val = v := rfl
@[simp] theorem markedWith_written {w : Nat} (v : BitVec w) : (markedWith v).written = true := rfl

/-- `ERR` is bit 0 after `withErr`. -/
theorem withErr_err (e : Bool) (v : BitVec 8) : (withErr e v).getLsbD 0 = e := by
  cases e <;> simp [withErr]

/-- `withErr` keeps every bit but `ERR`. -/
theorem withErr_other (e : Bool) (v : BitVec 8) (i : Nat) (h : 1 ≤ i) : (withErr e v).getLsbD i = v.getLsbD i := by
  by_cases hi : i < 8
  · have : i = 1 ∨ i = 2 ∨ i = 3 ∨ i = 4 ∨ i = 5 ∨ i = 6 ∨ i = 7 := by omega
    rcases this with rfl | rfl | rfl | rfl | rfl | rfl | rfl <;> cases e <;> simp [withErr]
  · rw [BitVec.getLsbD_of_ge _ _ (by omega), BitVec.getLsbD_of_ge _ _ (by omega)]

/-- `withErr` keeps `RKV`. -/
theorem withErr_rkv (e : Bool) (v : BitVec 8) : (withErr e v).getLsbD 1 = v.getLsbD 1 :=
  withErr_other e v 1 (by decide)

/-- `RKV` is bit 1 after `withRkv`. -/
theorem withRkv_rkv (v : BitVec 8) : (withRkv v).getLsbD 1 = true := by simp [withRkv]

/-- `withRkv` keeps every bit but `RKV`. -/
theorem withRkv_other (v : BitVec 8) (i : Nat) (h : i ≠ 1) : (withRkv v).getLsbD i = v.getLsbD i := by
  by_cases hi : i < 8
  · have : i = 0 ∨ i = 2 ∨ i = 3 ∨ i = 4 ∨ i = 5 ∨ i = 6 ∨ i = 7 := by omega
    rcases this with rfl | rfl | rfl | rfl | rfl | rfl | rfl <;> simp [withRkv]
  · rw [BitVec.getLsbD_of_ge _ _ (by omega), BitVec.getLsbD_of_ge _ _ (by omega)]

/-- The outcome written last is the one that counts. -/
@[simp] theorem withErr_withErr (e e' : Bool) (v : BitVec 8) : withErr e (withErr e' v) = withErr e v := by
  apply BitVec.eq_of_getLsbD_eq
  intro i _
  rcases Nat.eq_zero_or_pos i with rfl | hi
  · rw [withErr_err, withErr_err]
  · simp only [withErr_other _ _ i hi]

/-- The fields of `STATUS` when a command ends: `ERR` is its outcome, `RKV` and the reserved bits are kept. -/
theorem withErr_fields (e : Bool) (v : BitVec 8) :
    (withErr e v).getLsbD 0 = e ∧ (withErr e v).getLsbD 1 = v.getLsbD 1 ∧
      ∀ i, 2 ≤ i → (withErr e v).getLsbD i = v.getLsbD i :=
  ⟨withErr_err e v, withErr_rkv e v, fun i hi => withErr_other e v i (by omega)⟩

/-- The fields of `STATUS` after a command that derived the round keys. -/
theorem withErr_withRkv_fields (e : Bool) (v : BitVec 8) :
    (withErr e (withRkv v)).getLsbD 0 = e ∧ (withErr e (withRkv v)).getLsbD 1 = true ∧
      ∀ i, 2 ≤ i → (withErr e (withRkv v)).getLsbD i = v.getLsbD i :=
  ⟨withErr_err e _, (withErr_rkv e _).trans (withRkv_rkv v),
    fun i hi => (withErr_other e _ i (by omega)).trans (withRkv_other v i (by omega))⟩

end Sys2Proof.Machine
end

