-- ==== Sys2Proof/Laws/Commands.lean ====
section
/-! SUPPORT. What each shared operation can do, said once: the operand reads, the two parametrised commands, the host's
accesses and the step. A proof about a command cites these and unfolds none of them. -/

namespace Sys2Proof.Machine

section operands
variable {w : Nat}

/-- Reading an operand goes on exactly when it is written. -/
theorem needOperand_next (r : Marked w) (go : BitVec w → Host.Outcome State Fault Refusal) (t : State) :
    needOperand r go = .next t ↔ r.written = true ∧ go r.val = .next t := by
  unfold needOperand
  split <;> simp_all

/-- A written operand is read. -/
theorem needOperand_written (r : Marked w) (go : BitVec w → Host.Outcome State Fault Refusal)
    (h : r.written = true) : needOperand r go = go r.val := if_pos h

/-- An unwritten operand faults. -/
theorem needOperand_unwritten (r : Marked w) (go : BitVec w → Host.Outcome State Fault Refusal)
    (h : r.written = false) : needOperand r go = .fault .unwrittenOperand := by
  unfold needOperand; simp [h]

/-- Reading the round keys goes on exactly when `RKV` is 1. -/
theorem needSchedule_next (s : State) (go : Schedule → Host.Outcome State Fault Refusal) (t : State) :
    needSchedule s go = .next t ↔ statusRkv s = true ∧ go s.rk = .next t := by
  unfold needSchedule
  split <;> simp_all

/-- Reading the data goes on exactly when every byte of it is written. -/
theorem needData_next (m : Memory) (n : Nat) (go : List Byte → Host.Outcome State Fault Refusal) (t : State) :
    needData m n go = .next t ↔ ∃ data, memRead m 0 n = some data ∧ go data = .next t := by
  unfold needData
  split <;> simp_all

end operands

/-- The data of an ECB command can be read exactly when it is all written. -/
theorem memRead_zero_isSome (m : Memory) (n : Nat) : (memRead m 0 n).isSome = true ↔ AllWritten m n := by
  rw [memRead_isSome]
  simp [AllWritten]

/-- The validity predicate, as a proposition. -/
theorem ecbValid_iff_checks (s : State) : ecbValid s = true ↔
    fctlDpres s = true ∧ fctlKlen s = 8 ∧ 0 < s.len.toInt ∧ s.len.toNat % 8 = 0 ∧
      withinCapacity s.len.toNat = true := by
  simp [ecbValid, dataPresent, keyWidthOk, lengthPositive, lengthAligned, lengthFits, and_assoc]

/-- Everything `KSCHED` can answer as a next state. -/
theorem execKsched_next (s t : State) : execKsched s = .next t ↔
    s.key.written = true ∧ t = (s.deriveRoundKeys s.key.val).succeed := by
  unfold execKsched
  rw [needOperand_next, Host.Outcome.next.injEq, eq_comm (b := t)]

/-- Everything `ROUNDF` can answer as a next state. -/
theorem execRoundf_next (s t : State) : execRoundf s = .next t ↔
    s.rin.written = true ∧ s.skin.written = true ∧ t = (s.setFout (roundFn s.rin.val s.skin.val)).succeed := by
  unfold execRoundf
  rw [needOperand_next, needOperand_next, Host.Outcome.next.injEq, eq_comm (b := t)]

/-- Everything a block command can answer as a next state. -/
theorem cryptBlock_next (e : Bool) (s t : State) : cryptBlock e s = .next t ↔
    statusRkv s = true ∧ s.din.written = true ∧ t = (s.setDout (crypt s.din.val s.rk e)).succeed := by
  unfold cryptBlock
  rw [needSchedule_next, needOperand_next, Host.Outcome.next.injEq, eq_comm (b := t)]

/-- The state after a successful ECB command over the bytes `data`. -/
def ecbDone (e : Bool) (s : State) (data : List Byte) : State :=
  ((s.deriveRoundKeys s.key.val).setObuf
    ((List.range (s.len.toNat / 8)).foldl (ecbStore (ks s.key.val) e data) s.obuf)).succeed

/-- Everything an ECB command can answer as a next state: `InvalidInput`, or success. -/
theorem ecbCommand_next (e : Bool) (s t : State) : ecbCommand e s = .next t ↔
    (ecbValid s = false ∧ t = s.raiseInvalidInput) ∨
    (ecbValid s = true ∧ s.key.written = true ∧
      ∃ data, memRead s.ibuf 0 s.len.toNat = some data ∧ t = ecbDone e s data) := by
  unfold ecbCommand
  by_cases h : ecbValid s = true
  · rw [if_pos h, needOperand_next, needData_next]
    simp only [Host.Outcome.next.injEq, h, reduceCtorEq, false_and, false_or, true_and, ecbDone]
    simp only [eq_comm (b := t)]
  · rw [if_neg h, Host.Outcome.next.injEq, eq_comm (b := t)]
    simp only [h, Bool.not_eq_true] at h ⊢
    simp only [true_and, reduceCtorEq, false_and, or_false]

/-- An ECB command that fails validation raises `InvalidInput` and does nothing else. -/
theorem ecbCommand_invalid (e : Bool) (s : State) (h : ecbValid s = false) :
    ecbCommand e s = .next s.raiseInvalidInput := (ecbCommand_next e s _).2 (.inl ⟨h, rfl⟩)

/-- Everything `exec` can answer as a next state, command by command. -/
theorem exec_next (i : Instr) (s t : State) (h : exec i s = .next t) :
    (i = .ksched ∧ s.key.written = true ∧ t = (s.deriveRoundKeys s.key.val).succeed) ∨
    (i = .roundf ∧ s.rin.written = true ∧ s.skin.written = true ∧
      t = (s.setFout (roundFn s.rin.val s.skin.val)).succeed) ∨
    (∃ e : Bool, i = (if e then .encblk else .decblk) ∧ statusRkv s = true ∧ s.din.written = true ∧
      t = (s.setDout (crypt s.din.val s.rk e)).succeed) ∨
    (∃ e : Bool, i = (if e then .ecbenc else .ecbdec) ∧ ecbValid s = false ∧ t = s.raiseInvalidInput) ∨
    (∃ (e : Bool) (data : List Byte), i = (if e then .ecbenc else .ecbdec) ∧ ecbValid s = true ∧ s.key.written = true ∧
      memRead s.ibuf 0 s.len.toNat = some data ∧ t = ecbDone e s data) := by
  cases i with
  | ksched => exact .inl ⟨rfl, (execKsched_next s t).1 h⟩
  | roundf => exact .inr (.inl ⟨rfl, (execRoundf_next s t).1 h⟩)
  | decblk => exact .inr (.inr (.inl ⟨false, rfl, (cryptBlock_next _ _ _).1 h⟩))
  | encblk => exact .inr (.inr (.inl ⟨true, rfl, (cryptBlock_next _ _ _).1 h⟩))
  | ecbdec =>
    rcases (ecbCommand_next _ _ _).1 h with ⟨h1, h2⟩ | ⟨h1, h2, data, h3, h4⟩
    · exact .inr (.inr (.inr (.inl ⟨false, rfl, h1, h2⟩)))
    · exact .inr (.inr (.inr (.inr ⟨false, data, rfl, h1, h2, h3, h4⟩)))
  | ecbenc =>
    rcases (ecbCommand_next _ _ _).1 h with ⟨h1, h2⟩ | ⟨h1, h2, data, h3, h4⟩
    · exact .inr (.inr (.inr (.inl ⟨true, rfl, h1, h2⟩)))
    · exact .inr (.inr (.inr (.inr ⟨true, data, rfl, h1, h2, h3, h4⟩)))

/-- Everything a host write of a register can do: it issues a command, stores into one of the six writable registers, or
is ignored. -/
theorem hostWrite_next (r : RegName) (v : BitVec r.width) (s t : State) (h : hostWrite r v s = .next t) :
    (∃ w : BitVec 8, Access.wr r v = .wr .cmd w ∧ issue w s = .next t) ∨
      (∃ v, t = s.setKey v) ∨ (∃ v, t = s.setDin v) ∨ (∃ v, t = s.setRin v) ∨
      (∃ v, t = s.setSkin v) ∨ (∃ v, t = s.setLen v) ∨ (∃ v, t = s.setFctl v) ∨ t = s := by
  cases r <;> simp only [hostWrite, Host.Outcome.next.injEq] at h
  case cmd => exact .inl ⟨v, rfl, h⟩
  case key => exact .inr (.inl ⟨v, h.symm⟩)
  case din => exact .inr (.inr (.inl ⟨v, h.symm⟩))
  case rin => exact .inr (.inr (.inr (.inl ⟨v, h.symm⟩)))
  case skin => exact .inr (.inr (.inr (.inr (.inl ⟨v, h.symm⟩))))
  case len => exact .inr (.inr (.inr (.inr (.inr (.inl ⟨v, h.symm⟩)))))
  case fctl => exact .inr (.inr (.inr (.inr (.inr (.inr (.inl ⟨v, h.symm⟩))))))
  all_goals exact .inr (.inr (.inr (.inr (.inr (.inr (.inr h.symm))))))

/-- Everything issuing a word can do: the command it decodes to, or `InvalidInput`. -/
theorem issue_next (w : BitVec 8) (s t : State) (h : issue w s = .next t) :
    (∃ i, decode w = .ok i ∧ exec i s = .next t) ∨ (decode w = .error (.reserved w) ∧ t = s.raiseInvalidInput) := by
  unfold issue at h
  cases hd : decode w with
  | ok i => rw [hd] at h; exact .inl ⟨i, rfl, h⟩
  | error e =>
    rw [hd] at h
    refine .inr ⟨?_, by simpa [eq_comm] using h⟩
    unfold decode at hd
    simp only at hd
    split at hd
    · split at hd <;> simp_all
    · simp_all

/-- A written register reads as its value. -/
theorem readMarked_written {w : Nat} (r : Marked w) (d : Nat) (h : r.written = true) : readMarked r d = r.val := if_pos h

/-- An unwritten register reads as the free value of the read. -/
theorem readMarked_unwritten {w : Nat} (r : Marked w) (d : Nat) (h : r.written = false) :
    readMarked r d = (Config.freeRegister d).setWidth w := by
  unfold readMarked; simp [h]

/-- The bytes of a host access all exist exactly when they are in range. -/
theorem inBuffer_iff (off n : Nat) : inBuffer off n = true ↔ InRange off n := by
  simp [inBuffer, InRange, withinCapacity_iff]

/-- A step with nothing pending changes nothing. -/
theorem step_idle (s : State) (h : s.pending = []) : step s = .next s := by
  unfold step; rw [h]

/-- A step performs the first pending access. -/
theorem step_pending (s : State) (a : Access) (rest : List Access) (h : s.pending = a :: rest) :
    step s = performAccess a (s.setPending rest) := by
  unfold step; rw [h]

/-- Everything performing one access can do: run a word, reset, store into one of the six writable registers or into
`IBUF`, give the host a reading, or nothing. -/
theorem performAccess_next (a : Access) (s t : State) (h : performAccess a s = .next t) :
    (∃ w : BitVec 8, a = .wr .cmd w ∧ issue w s = .next t) ∨ (a = .reset ∧ t = applyReset s) ∨
      (∃ v, t = s.setKey v) ∨ (∃ v, t = s.setDin v) ∨ (∃ v, t = s.setRin v) ∨ (∃ v, t = s.setSkin v) ∨
      (∃ v, t = s.setLen v) ∨ (∃ v, t = s.setFctl v) ∨
      (∃ off bs, InRange off bs.length ∧ t = s.setIbuf (memWrite s.ibuf off bs)) ∨
      (∃ r, t = s.addReading r) ∨ t = s := by
  cases a with
  | wr r v =>
    rcases hostWrite_next r v s t h with ⟨w, hw, h⟩ | h | h | h | h | h | h | h
    · exact .inl ⟨w, hw, h⟩
    all_goals simp [h]
  | rd r => simp only [performAccess, Host.Outcome.next.injEq] at h; simp [← h]
  | wrm b off bs =>
    simp only [performAccess] at h
    split at h
    · rename_i hr
      simp only [Host.Outcome.next.injEq] at h
      cases b
      · exact .inr (.inr (.inr (.inr (.inr (.inr (.inr (.inr (.inl ⟨off, bs, (inBuffer_iff _ _).1 hr, h.symm⟩))))))))
      · simp [← h, writeBuffer]
    · simp at h
  | rdm b off n =>
    simp only [performAccess] at h
    split at h
    · simp only [Host.Outcome.next.injEq] at h; simp [← h]
    · simp at h
  | reset => simp only [performAccess, Host.Outcome.next.injEq] at h; simp [← h]

/-- Everything a step can do: nothing while idle, else the first pending access. -/
theorem step_next (s t : State) (h : step s = .next t) :
    (s.pending = [] ∧ t = s) ∨
      ∃ a rest, s.pending = a :: rest ∧ performAccess a (s.setPending rest) = .next t := by
  cases hp : s.pending with
  | nil => rw [step_idle s hp, Host.Outcome.next.injEq] at h; exact .inl ⟨rfl, h.symm⟩
  | cons a rest => rw [step_pending s a rest hp] at h; exact .inr ⟨a, rest, rfl, h⟩

end Sys2Proof.Machine
end

