-- ==== Sys2Proof/Laws/Ecb.lean ====
section
/-! SUPPORT. What the block loop of an ECB command leaves in `OBUF`, said once for any order of the blocks. -/

namespace Sys2Proof.Machine

/-- `bitsToBytes` of N bytes is N bytes. -/
@[simp] theorem bitsToBytes_length (N : Nat) (x : BitVec (8 * N)) : (bitsToBytes N x).length = N := by
  simp [bitsToBytes]

/-- One block through the cipher is 8 bytes. -/
@[simp] theorem cryptBytes_length (K : Schedule) (e : Bool) (bs : List Byte) : (cryptBytes K e bs).length = 8 := by
  simp [cryptBytes]

/-- One iteration of the loop: the 8 bytes of its block are replaced, nothing else. -/
theorem ecbStore_read (K : Schedule) (e : Bool) (data : List Byte) (obuf : Memory) (b a : Nat) :
    (ecbStore K e data obuf b).read a =
      if a / 8 = b then (cryptBytes K e (blockBytes data (a / 8)))[a % 8]? else obuf.read a := by
  unfold ecbStore
  split
  · rename_i h
    subst h
    have hlt : a % 8 < (cryptBytes K e (blockBytes data (a / 8))).length := by
      rw [cryptBytes_length]; omega
    conv_lhs => rw [show a = 8 * (a / 8) + a % 8 by omega]
    rw [show (8 * (a / 8) + a % 8) / 8 = a / 8 by omega, read_memWrite_inside _ _ _ _ hlt,
      List.getElem?_eq_getElem hlt]
  · exact read_memWrite_outside _ _ _ _ (by rw [cryptBytes_length]; omega)

/-- The loop over any list of blocks: every byte of a listed block is replaced, nothing else. -/
theorem ecbStore_foldl_read (K : Schedule) (e : Bool) (data : List Byte) (order : List Nat) (obuf : Memory) (a : Nat) :
    (order.foldl (ecbStore K e data) obuf).read a =
      if a / 8 ∈ order then (cryptBytes K e (blockBytes data (a / 8)))[a % 8]? else obuf.read a := by
  induction order generalizing obuf with
  | nil => simp
  | cons b rest ih =>
    rw [List.foldl_cons, ih, ecbStore_read]
    by_cases h1 : a / 8 ∈ rest
    · simp [h1]
    · by_cases h2 : a / 8 = b <;> simp [h1, h2]

/-- The loop keeps the canonical form. -/
theorem ecbStore_foldl_wf (K : Schedule) (e : Bool) (data : List Byte) (order : List Nat) (obuf : Memory)
    (h : obuf.wf = true) : (order.foldl (ecbStore K e data) obuf).wf = true := by
  induction order generalizing obuf with
  | nil => exact h
  | cons b rest ih => exact ih _ (memWrite_wf _ _ _ h)

/-- The loop lists only offsets of its blocks and offsets listed before. -/
theorem mem_ecbStore_foldl (K : Schedule) (e : Bool) (data : List Byte) (order : List Nat) (obuf : Memory)
    (c : Host.Cell) (h : c ∈ order.foldl (ecbStore K e data) obuf) : c.1 / 8 ∈ order ∨ c ∈ obuf := by
  induction order generalizing obuf with
  | nil => exact .inr h
  | cons b rest ih =>
    rcases ih _ h with h | h
    · exact .inl (List.mem_cons_of_mem _ h)
    · rcases mem_memWrite _ _ _ _ h with ⟨h1, h2⟩ | h
      · rw [cryptBytes_length] at h2
        exact .inl (List.mem_cons.2 (.inl (by omega)))
      · exact .inr h

/-- `OBUF` after a successful ECB command, byte by byte. -/
theorem ecbDone_obuf_read (e : Bool) (s : State) (data : List Byte) (a : Nat) :
    (ecbDone e s data).obuf.read a =
      if a < 8 * (s.len.toNat / 8) then (cryptBytes (ks s.key.val) e (blockBytes data (a / 8)))[a % 8]?
      else s.obuf.read a := by
  have hm : a / 8 ∈ List.range (s.len.toNat / 8) ↔ a < 8 * (s.len.toNat / 8) := by
    rw [List.mem_range]; omega
  unfold ecbDone
  simp only [State.succeed_obuf, State.setObuf_obuf, ecbStore_foldl_read, hm]

end Sys2Proof.Machine
end

