-- ==== Sys2Proof/Laws/PerInstr.lean ====
section
/-! SUPPORT. Statements about every command as syntax, one lemma per constructor. Family `Fields`: the word of the command
splits into the fields the format gives it, and those fields pass every check. -/

namespace Sys2Proof.Laws.Fields

/-- The encoder and the format agree on the command, and the command is well formed (30_encoding.md rules R71 and R72). -/
def Statement (i : Instr) : Prop := fieldsOf (encode i) = i.fields ∧ i.wellFormed = true

theorem ksched : Statement .ksched := by unfold Statement; decide
theorem roundf : Statement .roundf := by unfold Statement; decide
theorem decblk : Statement .decblk := by unfold Statement; decide
theorem encblk : Statement .encblk := by unfold Statement; decide
theorem ecbdec : Statement .ecbdec := by unfold Statement; decide
theorem ecbenc : Statement .ecbenc := by unfold Statement; decide

end Sys2Proof.Laws.Fields
end

