-- ==== Sys2Proof/Tests/Slice0.lean ====
section
/-! SUPPORT. The model's own tests: well-formedness and decoding, one or two steps per command with the values of
95_test_vectors.md, and for each statement with hypotheses a witness `witness_<its name>` that they can be met. Every
expected value is the spec's; none was read off the model. -/

namespace Sys2Proof.Tests.Slice0

open Sys2Proof Sys2Proof.Machine

/-! Well-formedness: one ill-formed term for each of the three checks of 30_encoding.md rule R71. -/

theorem test_wf_zero_field : Cmd8.wellFormed ⟨8#4, 1#3, 0#1⟩ = false := by decide
theorem test_wf_selector : Cmd8.wellFormed ⟨0#4, 5#3, 0#1⟩ = false := by decide
theorem test_wf_mode : Cmd8.wellFormed ⟨0#4, 1#3, 1#1⟩ = false := by decide
theorem test_wf_each_check : Cmd8.zeroOk ⟨8#4, 1#3, 0#1⟩ = false ∧ Cmd8.opOk ⟨0#4, 5#3, 0#1⟩ = false ∧
    Cmd8.modeOk ⟨0#4, 2#3, 1#1⟩ = false ∧ Cmd8.wellFormed ⟨0#4, 3#3, 1#1⟩ = true := by decide

/-! Decoding: each command's word written out bit by bit from 30_encoding.md rule R72, and the reserved words of
95_test_vectors.md L2.8. -/

theorem test_decode_ksched : decode 0b00000010#8 = .ok .ksched := by decide
theorem test_decode_roundf : decode 0b00000100#8 = .ok .roundf := by decide
theorem test_decode_decblk : decode 0b00000110#8 = .ok .decblk := by decide
theorem test_decode_encblk : decode 0b00000111#8 = .ok .encblk := by decide
theorem test_decode_ecbdec : decode 0b00001000#8 = .ok .ecbdec := by decide
theorem test_decode_ecbenc : decode 0b00001001#8 = .ok .ecbenc := by decide
theorem test_decode_reserved : ∀ w ∈ [0x00#8, 0x01#8, 0x03#8, 0x05#8, 0x0A#8, 0x0B#8, 0x0C#8, 0x0F#8, 0x12#8, 0x87#8,
    0xFF#8], decode w = .error (.reserved w) := by decide
theorem test_decodeTableWord : decodeTableWord 8 0x07 = some .encblk ∧ decodeTableWord 8 0x84 = none := by decide

/-! Small states. -/

/-- `KEY` of the known vector written, `RKV` set, every other register written; the round keys are all zero. -/
def full : State :=
  { State.reset with
    status := 0x02, key := ⟨0x133457799BBCDFF1, true⟩, din := ⟨0x0123456789ABCDEF, true⟩, dout := ⟨0, true⟩,
    rin := ⟨0xF0AAF0AA, true⟩, skin := ⟨0x1B02EFFC7072, true⟩, fout := ⟨0, true⟩ }

/-- Row 1 of 95_test_vectors.md L2.8: one block of the known vector in `IBUF`, `LEN = 8`, `FCTL = 0x0108`. -/
def oneBlock : State :=
  { State.reset with
    key := ⟨0x133457799BBCDFF1, true⟩, fctl := 0x0108, len := 8,
    ibuf := [(0, 0x01), (1, 0x23), (2, 0x45), (3, 0x67), (4, 0x89), (5, 0xAB), (6, 0xCD), (7, 0xEF)] }

/-- The same with `LEN` and `FCTL` as given. -/
def rowOf (len : BitVec 32) (fctl : BitVec 16) : State := { oneBlock with len := len, fctl := fctl }

/-- A state whose next step performs the access. -/
def about (a : Access) (s : State) : State := s.setPending [a]

/-- The field of the next state, if there is one. -/
def field {α : Type} (f : State → α) (o : Host.Outcome State Fault Refusal) : Option α :=
  match o with
  | .next s => some (f s)
  | .fault _ => none
  | .refused _ => none

/-- The fault, if there is one. -/
def faultOf (o : Host.Outcome State Fault Refusal) : Option Fault :=
  match o with
  | .next _ => none
  | .fault f => some f
  | .refused _ => none

/-! One step per command (95_test_vectors.md). -/

/-- L2.2: the first and the last subkey of the known key, and `STATUS`. -/
theorem test_ksched : field (fun s => (s.rk[0], s.rk[15], s.status)) (step (about (pseudoCmd .ksched) full)) =
    some (0x1B02EFFC7072#48, 0xCB3D8B0E17F5#48, 0x02#8) := by decide +kernel
/-- L2.8: after reset, `KSCHED` finds `KEY` unwritten. -/
theorem test_ksched_fault : faultOf (step (about (pseudoCmd .ksched) State.reset)) = some .unwrittenOperand := by
  decide +kernel
/-- L2.4, last row but three: round 0 of the known vector. -/
theorem test_roundf : field (fun s => (s.fout.val, s.fout.written, s.status)) (exec .roundf full) =
    some (0x234AA9BB#32, true, 0x02#8) := by decide +kernel
/-- L2.4, row 11: only the last bit of group 0 set, which tells rows from columns. -/
theorem test_roundf_row : roundFn 0x00000000#32 0x040000000000#48 = 0xD85859BC#32 ∧
    roundFn 0x12345678#32 0x0123456789AB#48 = 0xCA23B070#32 := by decide +kernel
/-- L1.1: the known vector. -/
theorem test_encblk : field (fun s => s.dout.val) (exec .encblk (full.setRk (ks 0x133457799BBCDFF1#64))) =
    some 0x85E813540F0AB405#64 := by decide +kernel
/-- L2.8: a written `KEY` derives nothing. -/
theorem test_encblk_fault : faultOf (exec .encblk (full.setStatus 0x00)) = some .noSchedule := by decide +kernel
/-- L2.6, seventh row: decryption of the known block. -/
theorem test_decblk : field (fun s => s.dout.val) (exec .decblk (full.setRk (ks 0x133457799BBCDFF1#64))) =
    some 0xEE0F7C12E0B09338#64 := by decide +kernel
/-- L2.6, last paragraph: sixteen subkeys no key has, `K[i] = i`. -/
theorem test_crypt_any_schedule :
    crypt 0#64 (Vector.ofFn fun i : Fin 16 => BitVec.ofNat 48 i) true = 0xEF0A1534940F0F2D#64 := by decide +kernel
/-- L2.7, row 5: two different blocks, each to its own offset. -/
theorem test_ecbProcess : ecbProcess [0x01, 0x23, 0x45, 0x67, 0x89, 0xAB, 0xCD, 0xEF, 0, 0, 0, 0, 0, 0, 0, 0]
    0x133457799BBCDFF1#64 false = [0xEE, 0x0F, 0x7C, 0x12, 0xE0, 0xB0, 0x93, 0x38, 0x9E, 0xFD, 0xFC, 0x5C, 0x2B, 0x5C,
      0xD5, 0x85] := by decide +kernel

/-- `LEN = 8` is valid whatever the capacity is. -/
theorem oneBlock_valid : ecbValid oneBlock = true := by
  rw [ecbValid_iff_checks]
  exact ⟨by decide, by decide, by decide, by decide, withinCapacity_block _ (by decide)⟩

/-- The bytes of `oneBlock`. -/
def oneBlockBytes : List Byte := [0x01, 0x23, 0x45, 0x67, 0x89, 0xAB, 0xCD, 0xEF]

/-- An ECB command on `oneBlock` completes. -/
theorem ecbCommand_oneBlock (e : Bool) : ecbCommand e oneBlock = .next (ecbDone e oneBlock oneBlockBytes) :=
  (ecbCommand_next e _ _).2 (.inr ⟨oneBlock_valid, rfl, oneBlockBytes, by decide, rfl⟩)

/-- L2.8, row 1. -/
theorem test_ecbenc : (ecbDone true oneBlock oneBlockBytes).status = 0x02#8 ∧
    (ecbDone true oneBlock oneBlockBytes).obuf =
      [(0, 0x85), (1, 0xE8), (2, 0x13), (3, 0x54), (4, 0x0F), (5, 0x0A), (6, 0xB4), (7, 0x05)] := by decide +kernel
/-- L2.7, row 5, its first block. -/
theorem test_ecbdec : memRead (ecbDone false oneBlock oneBlockBytes).obuf 0 8 =
    some [0xEE, 0x0F, 0x7C, 0x12, 0xE0, 0xB0, 0x93, 0x38] := by decide +kernel

/-- L2.8, rows 3 to 9 and 11 to 18 without 16: each ends in `InvalidInput`, `STATUS = 0x01`. -/
theorem test_ecb_invalid : ([(0x00000007#32, 0x0108#16), (0x00000000#32, 0x0108#16), (0xFFFFFFF8#32, 0x0108#16),
    (0x80000000#32, 0x0108#16), (0x00000009#32, 0x0108#16), (0x00000001#32, 0x0108#16), (0x7FFFFFFF#32, 0x0108#16),
    (0x00000008#32, 0x0008#16), (0x00000008#32, 0x0100#16), (0x00000008#32, 0x0107#16), (0x00000008#32, 0x0109#16),
    (0x00000008#32, 0x0110#16), (0x00000008#32, 0x0000#16), (0x00000007#32, 0x0000#16)].all fun r =>
    field (fun s => s.status) (exec .ecbenc (rowOf r.1 r.2)) == some 0x01#8) = true := by decide +kernel
/-- L2.8: from a state with `STATUS = 0x02`, a reserved word leaves `STATUS = 0x03`. -/
theorem test_reserved : ∀ w ∈ [0x00#8, 0x05#8, 0x0C#8, 0x12#8, 0xFF#8],
    field (fun s => s.status) (issue w full) = some 0x03#8 := by decide +kernel
/-- L2.8, row 16: the reserved bits of `FCTL` ignore a write. -/
theorem test_fctl_reserved : field (fun s => s.fctl) (step (about (.wr .fctl 0xFF08#16) State.reset)) = some 0x0108#16 := by
  decide +kernel
/-- L3.1: a write of `RK0` is ignored, a read of `CMD` gives 0. -/
theorem test_readonly : field (fun s => s.rk[0]) (step (about (.wr (.rk 0) 1#48) full)) = some 0#48 ∧
    field (fun s => s.seen) (step (about (.rd .cmd) full)) = some [.reg .cmd 0x00#8] := by decide +kernel
/-- L3.3: two writes of `IBUF`, the second over part of the first, and the canonical form. -/
theorem test_memory : memWrite (memWrite [] 4 [0xAA, 0xBB]) 3 [0x11, 0x22] = [(3, 0x11), (4, 0x22), (5, 0xBB)] ∧
    Memory.wf [(3, 0x11), (4, 0x22), (5, 0xBB)] = true ∧ Memory.wf [(4, 0x22), (3, 0x11)] = false := by decide
/-- L2.10: the primitives. -/
theorem test_primitives : bytesToBits 8 oneBlockBytes = 0x0123456789ABCDEF#64 ∧
    bitsToBytes 8 0x85E813540F0AB405#64 = [0x85, 0xE8, 0x13, 0x54, 0x0F, 0x0A, 0xB4, 0x05] ∧
    rol28 0x8000000#28 2 = 0x0000002#28 ∧ firstHalf 28 0xF0CCAAF556678F#56 = 0xF0CCAAF#28 ∧
    secondHalf 28 0xF0CCAAF556678F#56 = 0x556678F#28 ∧ (0x7FFFFFF8#32).toInt = 2147483640 := by decide +kernel
/-- 30_encoding.md rule R78: the pseudo-instructions expand to the words of rule R72. -/
theorem test_pseudo : pseudoBlk true = .wr .cmd 0x07#8 ∧ pseudoBlk false = .wr .cmd 0x06#8 ∧
    pseudoEcb true = .wr .cmd 0x09#8 ∧ pseudoEcb false = .wr .cmd 0x08#8 ∧
    pseudoWrkey 0x0100#16 #v[0x01, 0x23, 0x45, 0x67, 0x89, 0xAB, 0xCD, 0xEF] = [.wr .key 0x0123456789ABCDEF#64, .wr .fctl 0x0108#16] := by decide +kernel
/-- The machine fetches what `withFetchWord` places. -/
theorem test_withFetchWord : faultOf (step (State.reset.withFetchWord 8 0x07)) = some .noSchedule := by decide +kernel

/-! Witnesses. Each shows a state and operands that meet the hypotheses of the statement it is named after, clause by
clause. `BUFMAX` is a constant with no value, so what an access outside a buffer needs is shown for every bounded
capacity. -/

/-- A next state for each command, from states built above. -/
theorem exec_full : (∃ t, exec .ksched full = .next t) ∧ (∃ t, exec .roundf full = .next t) ∧
    (∃ t, exec .encblk full = .next t) ∧ ∃ t, exec .decblk full = .next t := ⟨⟨_, rfl⟩, ⟨_, rfl⟩, ⟨_, rfl⟩, _, rfl⟩

/-- The commands by their mode bit. -/
theorem exec_ecb_mode (e : Bool) (s : State) : exec (if e then .ecbenc else .ecbdec) s = ecbCommand e s := by
  cases e <;> rfl

theorem exec_oneBlock (e : Bool) : exec (if e then .ecbenc else .ecbdec) oneBlock =
    .next (ecbDone e oneBlock oneBlockBytes) := (exec_ecb_mode e _).trans (ecbCommand_oneBlock e)

theorem oneBlock_done (e : Bool) : (ecbDone e oneBlock oneBlockBytes).status.getLsbD 0 = false := withErr_err _ _

theorem oneBlock_pre : EcbPreconditions oneBlock :=
  ⟨by decide, by decide, by decide, by decide, (withinCapacity_iff _).1 (withinCapacity_block _ (by decide))⟩

theorem reset_not_pre : ¬EcbPreconditions State.reset := fun h => by simp [State.reset] at h; exact absurd h.1 (by decide)

/-- Eight bytes from offset 0 exist in every buffer, and so does an empty run anywhere. -/
theorem inRange_zero_eight : InRange 0 8 := .inr ((withinCapacity_iff _).1 (withinCapacity_block _ (by decide)))

theorem inRange_empty (off : Nat) : InRange off 0 := .inl rfl

/-- Where the capacity is bounded, the byte below it exists and the byte at it does not. -/
theorem inRange_at_capacity (m : Nat) (h : Config.bufMax = some m) : InRange (m - 1) 1 ∧ ¬InRange m 1 := by
  have h8 := (withinCapacity_iff 8).1 (withinCapacity_block 8 (Nat.le_refl _)) m h
  refine ⟨.inr fun k hk => ?_, fun hc => ?_⟩
  · rw [h] at hk; cases hk; omega
  · rcases hc with hc | hc
    · omega
    · have := hc m h; omega

theorem witness_OpcodeMap : (0x00#8 ∉ legalWords) ∧ (0x0A#8 ∉ legalWords) ∧ 0xFF#8 ∉ legalWords := by decide
theorem witness_DecodeEncodeAgree : Instr.wellFormed .ksched = true ∧ decode 0x02#8 = .ok .ksched ∧
    (fieldsOf 0x09#8).wellFormed = true := by decide
theorem witness_ReservedWordRaisesInvalidInput : (0x01#8 ∉ legalWords) ∧ (0x03#8 ∉ legalWords) ∧ (0x05#8 ∉ legalWords) ∧
    (0x0A#8 ∉ legalWords) ∧ 0x12#8 ∉ legalWords := by decide
theorem witness_StepRunsDecodedCommand : (about (.wr .cmd 0x02#8) full).pending = [.wr .cmd 0x02#8] ∧
    decode 0x02#8 = .ok .ksched ∧ decode 0x03#8 = .error (.reserved 0x03#8) ∧ full.pending = [] := by decide
theorem witness_StepPerformsOneAccess (a : Access) : (about a full).pending = a :: [] ∧
    (∃ t, step (about (pseudoCmd .ksched) full) = .next t) ∧ (∃ t, step (about (.rd .len) full) = .next t) ∧
    (∃ t, step (about (.wrm .ibuf 9 []) full) = .next t) ∧ (∃ t, step (about (.rdm .obuf 9 0) full) = .next t) ∧
    ∃ t, step (about .reset full) = .next t := ⟨rfl, ⟨_, rfl⟩, ⟨_, rfl⟩, ⟨_, rfl⟩, ⟨_, rfl⟩, _, rfl⟩
theorem witness_HostReadReturnsRegister (r : RegName) : (about (.rd r) full).pending = .rd r :: [] ∧
    full.key.written = true ∧ full.din.written = true ∧ full.dout.written = true ∧ full.rin.written = true ∧
    full.skin.written = true ∧ full.fout.written = true ∧ full.status.getLsbD 1 = true :=
  ⟨rfl, rfl, rfl, rfl, rfl, rfl, rfl, by decide⟩
theorem witness_HostReadOfUnwrittenIsFree (r : RegName) : (about (.rd r) State.reset).pending = .rd r :: [] ∧
    State.reset.key.written = false ∧ State.reset.din.written = false ∧ State.reset.dout.written = false ∧
    State.reset.rin.written = false ∧ State.reset.skin.written = false ∧ State.reset.fout.written = false ∧
    State.reset.status.getLsbD 1 = false := ⟨rfl, rfl, rfl, rfl, rfl, rfl, rfl, by decide⟩
theorem witness_HostWriteStoresRegister (r : RegName) (v : BitVec r.width) : (about (.wr r v) full).pending = [.wr r v] := rfl
theorem witness_HostBufferWrite (b : BufName) (off : Nat) (bs : List Byte) :
    (about (.wrm b off bs) full).pending = [.wrm b off bs] ∧ InRange 0 oneBlockBytes.length ∧ InRange off 0 ∧
    ∀ m, Config.bufMax = some m → ¬InRange m 1 :=
  ⟨rfl, inRange_zero_eight, inRange_empty _, fun m h => (inRange_at_capacity m h).2⟩
theorem witness_HostBufferRead (b : BufName) (off n : Nat) : (about (.rdm b off n) oneBlock).pending = [.rdm b off n] ∧
    InRange 0 8 ∧ oneBlock.ibuf.read (0 + 7) = some 0xEF#8 ∧ oneBlock.obuf.read (0 + 7) = none ∧
    ∀ m, Config.bufMax = some m → ¬InRange m 1 :=
  ⟨rfl, inRange_zero_eight, by decide, rfl, fun m h => (inRange_at_capacity m h).2⟩
theorem witness_ResetEvent : (about .reset full).pending = .reset :: [] := rfl
theorem witness_BytesToBitsPositions : 7 < oneBlockBytes.length ∧ (7 : Nat) < 8 := by decide
theorem witness_BytesBitsRoundTrip : (7 : Nat) < 8 ∧ (0 : Nat) < 8 ∧
    bytesToBits 8 (bitsToBytes 8 0x8000000000000001#64) = 0x8000000000000001#64 := by decide +kernel
theorem witness_ApplyTablePositions : (1 : Nat) ≤ 1 ∧ 1 ≤ 48 ∧ 48 ≤ 48 ∧
    applyTable 0b10#2 (⟨[2, 1, 2], by decide, by decide⟩ : PermTable 2 3) = 0b010#3 := by decide +kernel
theorem witness_RotationPositions : (1 : Nat) ≤ 28 ∧ 28 ≤ 28 ∧ rol28 0x4000000#28 2 = 0x0000001#28 := by decide
theorem witness_KschedDerivesRoundKeys : full.key.written = true ∧ State.reset.key.written = false := by decide

/-- Steps (1) to (3) of 41_key_schedule.md rule R104 for the known key. -/
theorem witness_KeyScheduleByRounds :
    let key := 0x133457799BBCDFF1#64
    let C := fun i => (halvesAfter key i).1
    let D := fun i => (halvesAfter key i).2
    (∀ p, 1 ≤ p → p ≤ 28 → bitAt (C 0) p = bitAt (applyTable key pc1) p ∧
      bitAt (D 0) p = bitAt (applyTable key pc1) (28 + p)) ∧
    (∀ i, i < 16 → C (i + 1) = rol28 (C i) (if i ∈ [0, 1, 8, 15] then 1 else 2) ∧
      D (i + 1) = rol28 (D i) (if i ∈ [0, 1, 8, 15] then 1 else 2)) := by
  have h : ∀ p, p < 29 → 1 ≤ p → bitAt (halvesAfter 0x133457799BBCDFF1#64 0).1 p =
      bitAt (applyTable 0x133457799BBCDFF1#64 pc1) p ∧ bitAt (halvesAfter 0x133457799BBCDFF1#64 0).2 p =
      bitAt (applyTable 0x133457799BBCDFF1#64 pc1) (28 + p) := by decide +kernel
  exact ⟨fun p h1 h2 => h p (by omega) h1, by decide +kernel⟩
theorem witness_SubkeyBitsByKeyPosition : keyPosition 0 1 = 10 ∧ keyPosition 15 48 ≤ 64 ∧ (15 : Nat) < 16 ∧
    (1 : Nat) ≤ 48 := by decide +kernel
theorem witness_CumulativeEqualsTotal : (15 : Nat) < 16 ∧ (0 : Nat) < 16 := by decide
theorem witness_ParityBitsDoNotMatter : ∀ p, 1 ≤ p → p ≤ 64 → p % 8 ≠ 0 →
    bitAt 0x133457799BBCDFF1#64 p = bitAt 0x123456789ABCDEF0#64 p := by
  have h : ∀ p, p < 65 → p % 8 ≠ 0 → bitAt 0x133457799BBCDFF1#64 p = bitAt 0x123456789ABCDEF0#64 p := by decide +kernel
  exact fun p _ h2 h3 => h p (by omega) h3
theorem witness_OneKeyBitReaches : (1 : Nat) ≤ 1 ∧ 63 ≤ 64 ∧ 63 % 8 ≠ 0 ∧ 64 ≤ 64 ∧
    flipAt 0#64 1 = 0x8000000000000000#64 ∧ flipAt 0#64 64 = 1#64 := by decide
theorem witness_RoundfComputes : full.rin.written = true ∧ full.skin.written = true ∧
    State.reset.rin.written = false ∧ State.reset.skin.written = false := by decide
theorem witness_RoundFunctionByPosition : (1 : Nat) ≤ 1 ∧ 1 ≤ 32 ∧ 32 ≤ 32 ∧ straight.entries.getD 31 0 = 25 := by decide
theorem witness_ExpansionDifferences :
    (∀ q, 1 ≤ q → q ≤ 32 → (bitAt 0x00000002#32 q ≠ bitAt 0x00000000#32 q ↔ q = 31)) ∧
    ∀ q, 1 ≤ q → q ≤ 32 → (bitAt 0x00000001#32 q ≠ bitAt 0x00000000#32 q ↔ q = 32) := by
  have h : ∀ q, q < 33 → 1 ≤ q → (bitAt 0x00000002#32 q ≠ bitAt 0x00000000#32 q ↔ q = 31) ∧
      (bitAt 0x00000001#32 q ≠ bitAt 0x00000000#32 q ↔ q = 32) := by decide +kernel
  exact ⟨fun q h1 h2 => (h q (by omega) h1).1, fun q h1 h2 => (h q (by omega) h1).2⟩
theorem witness_RoundFunctionSeesMixedValueOnly : applyTable 0xFFFFFFFF#32 expansion ^^^ 0xFFFFFFFFFFFF#48 =
    applyTable 0#32 expansion ^^^ 0#48 := by decide +kernel
theorem witness_EncblkEncrypts : full.status.getLsbD 1 = true ∧ full.din.written = true ∧
    State.reset.status.getLsbD 1 = false ∧ (State.reset.setStatus 0x02).status.getLsbD 1 = true ∧
    (State.reset.setStatus 0x02).din.written = false := by decide
theorem witness_DecblkDecrypts : full.status.getLsbD 1 = true ∧ full.din.written = true ∧
    State.reset.status.getLsbD 1 = false ∧ (State.reset.setStatus 0x02).status.getLsbD 1 = true ∧
    (State.reset.setStatus 0x02).din.written = false ∧ (∃ t, exec .encblk full = .next t) ∧
    ∃ t, exec .decblk full = .next t :=
  ⟨by decide, by decide, by decide, by decide, by decide, ⟨_, rfl⟩, _, rfl⟩

/-- Sequences of half-blocks as 43_block_cipher.md rule R144 runs them, for the known block and both modes. -/
theorem witness_CryptByRounds (m : Bool) :
    let x := 0x0123456789ABCDEF#64
    let K := ks 0x133457799BBCDFF1#64
    let H := fun i => ((subkeyOrder K m).take i).foldl feistelRound (initialHalves x)
    (∀ p, 1 ≤ p → p ≤ 32 → bitAt (H 0).1 p = bitAt (applyTable x initialPerm) p ∧
      bitAt (H 0).2 p = bitAt (applyTable x initialPerm) (32 + p)) ∧
    ∀ (i : Nat) (h : i < 16), (H (i + 1)).1 = (H i).2 ∧
      (H (i + 1)).2 = (H i).1 ^^^ roundFn (H i).2 (if m then K[i] else K[15 - i]) := by
  have h : ∀ p, p < 33 → 1 ≤ p → bitAt (initialHalves 0x0123456789ABCDEF#64).1 p =
      bitAt (applyTable 0x0123456789ABCDEF#64 initialPerm) p ∧ bitAt (initialHalves 0x0123456789ABCDEF#64).2 p =
      bitAt (applyTable 0x0123456789ABCDEF#64 initialPerm) (32 + p) := by decide +kernel
  refine ⟨fun p h1 h2 => h p (by omega) h1, ?_⟩
  cases m <;> decide +kernel
theorem witness_FinalPermInvertsInitial : (1 : Nat) ≤ 1 ∧ 64 ≤ 64 ∧ finalPerm.entries.getD 0 0 = 40 ∧
    initialPerm.entries.getD 39 0 = 1 := by decide
theorem witness_BlockRoundTrip : ([] : List Byte).length % 8 = 0 ∧ oneBlockBytes.length % 8 = 0 := by decide
theorem witness_DecryptionRetracesEncryption : (0 : Nat) ≤ 16 ∧ 16 ≤ 16 := by decide
theorem witness_StaleRoundKeys : (∃ t, exec .encblk full = .next t) ∧ ∃ t, exec .decblk full = .next t :=
  ⟨⟨_, rfl⟩, _, rfl⟩
theorem witness_EcbValidity : ecbValid State.reset = false ∧ ecbValid oneBlock = true := ⟨by decide, oneBlock_valid⟩
theorem witness_InvalidEcbCommandIsAtomic : ¬EcbPreconditions State.reset := reset_not_pre

/-- The three cases of `EcbSpec`, its data clause and its untouched bytes. -/
theorem witness_EcbSpec : ¬EcbPreconditions State.reset ∧
    (EcbPreconditions { oneBlock with ibuf := [] } ∧
      ¬(oneBlock.key.written = true ∧ AllWritten ({ oneBlock with ibuf := [] } : State).ibuf oneBlock.len.toNat)) ∧
    EcbPreconditions oneBlock ∧ oneBlock.key.written = true ∧ AllWritten oneBlock.ibuf oneBlock.len.toNat ∧
    (0 < oneBlock.len.toNat / 8 ∧ memRead oneBlock.ibuf (8 * 0) 8 = some oneBlockBytes) ∧ oneBlock.len.toNat ≤ 8 :=
  ⟨reset_not_pre, ⟨oneBlock_pre, fun h => absurd (h.2 0 (by decide)) (by decide)⟩, oneBlock_pre, rfl, by
    unfold AllWritten; decide, by decide, by decide⟩
theorem witness_EcbencEncryptsBuffer : oneBlock.key = ⟨0x133457799BBCDFF1#64, true⟩ ∧ oneBlock.fctl = 0x0108#16 ∧
    oneBlock.len = 8#32 ∧ oneBlock.status = 0#8 ∧ memRead oneBlock.ibuf 0 8 = some oneBlockBytes := by decide
theorem witness_EcbdecDecryptsBuffer :
    let s : State := { oneBlock with ibuf := memWrite [] 0 [0x85, 0xE8, 0x13, 0x54, 0x0F, 0x0A, 0xB4, 0x05] }
    s.key = ⟨0x133457799BBCDFF1#64, true⟩ ∧ s.fctl = 0x0108#16 ∧ s.len = 8#32 ∧ s.status = 0#8 ∧
      memRead s.ibuf 0 8 = some [0x85, 0xE8, 0x13, 0x54, 0x0F, 0x0A, 0xB4, 0x05] := by decide
theorem witness_EcbOutputIsEcbProcess (e : Bool) : ∃ t, exec (if e then .ecbenc else .ecbdec) oneBlock = .next t ∧
    t.status.getLsbD 0 = false := ⟨_, exec_oneBlock e, oneBlock_done e⟩
theorem witness_BlockOrderIsFree : Memory.wf [] = true ∧ [1, 2, 0].Perm (List.range 3) := by decide
theorem witness_BlocksAreIndependent : 0 < oneBlockBytes.length / 8 ∧
    1 < (oneBlockBytes ++ oneBlockBytes).length / 8 ∧
    blockBytes oneBlockBytes 0 = blockBytes (oneBlockBytes ++ oneBlockBytes) 1 := by decide
theorem witness_OneBlockEitherWay (e : Bool) : oneBlock.len = 8#32 ∧ memRead oneBlock.ibuf 0 8 = some oneBlockBytes ∧
    ∃ t, exec (if e then .ecbenc else .ecbdec) oneBlock = .next t ∧ t.status.getLsbD 0 = false :=
  ⟨rfl, by decide, _, exec_oneBlock e, oneBlock_done e⟩
theorem witness_BufferRoundTrip : 0 < oneBlockBytes.length ∧ oneBlockBytes.length % 8 = 0 := by decide
theorem witness_EcbRoundTripOnMachine (e : Bool) : ∃ t data, exec (if e then .ecbenc else .ecbdec) oneBlock = .next t ∧
    t.status.getLsbD 0 = false ∧ memRead t.obuf 0 oneBlock.len.toNat = some data :=
  ⟨_, (memRead (ecbDone e oneBlock oneBlockBytes).obuf 0 8).getD [], exec_oneBlock e, oneBlock_done e, by
    cases e <;> decide +kernel⟩
theorem witness_ReadyCommandsSucceed : Ready .ksched full ∧ Ready .roundf full ∧ Ready .encblk full ∧
    Ready .decblk full ∧ Ready .ecbenc oneBlock ∧ Ready .ecbdec oneBlock :=
  have h : AllWritten oneBlock.ibuf oneBlock.len.toNat := by unfold AllWritten; decide
  ⟨rfl, ⟨rfl, rfl⟩, ⟨by decide, rfl⟩, ⟨by decide, rfl⟩, ⟨oneBlock_pre, rfl, h⟩, oneBlock_pre, rfl, h⟩
theorem witness_InvalidInputCauses : (∃ t, issue 0x00#8 full = .next t) ∧ (∃ t, issue 0x09#8 State.reset = .next t) ∧
    (∃ t, issue 0x02#8 full = .next t) ∧ ∃ t, issue 0x09#8 oneBlock = .next t :=
  ⟨⟨_, rfl⟩, ⟨_, rfl⟩, ⟨_, rfl⟩, _, exec_oneBlock true⟩
theorem witness_ErrHasNoEffect : ∀ i, 1 ≤ i → (0x03#8).getLsbD i = full.status.getLsbD i := by
  intro i hi
  by_cases h8 : i < 8
  · have h : ∀ i, i < 8 → 1 ≤ i → (0x03#8).getLsbD i = (0x02#8).getLsbD i := by decide
    exact h i h8 hi
  · rw [BitVec.getLsbD_of_ge _ _ (by omega), BitVec.getLsbD_of_ge _ _ (by omega)]
theorem witness_CommandsKeepTheirInputs : (∃ t, exec .ksched full = .next t) ∧ ∃ t, exec .ecbenc oneBlock = .next t :=
  ⟨⟨_, rfl⟩, _, exec_oneBlock true⟩
theorem witness_RegisterCommandFrames : (∃ t, exec .ksched full = .next t) ∧ (∃ t, exec .roundf full = .next t) ∧
    (∃ t, exec .encblk full = .next t) ∧ ∃ t, exec .decblk full = .next t := exec_full
theorem witness_EcbCommandFrame (e : Bool) : (∃ t, exec (if e then .ecbenc else .ecbdec) oneBlock = .next t ∧
      t.status.getLsbD 0 = false) ∧
    ∃ t, exec (if e then .ecbenc else .ecbdec) State.reset = .next t ∧ t.status.getLsbD 0 = true :=
  ⟨⟨_, exec_oneBlock e, oneBlock_done e⟩, State.reset.raiseInvalidInput,
    by rw [exec_ecb_mode, ecbCommand_invalid e _ (by decide)], by decide⟩
theorem witness_RoundKeysChangeOnlyByDerivation : (∃ t, step (about (pseudoCmd .ksched) full) = .next t ∧ t.rk ≠ full.rk) ∧
    ∃ t, step (about .reset (full.setRk (ks 0x133457799BBCDFF1#64))) = .next t ∧ t.rk ≠ ks 0x133457799BBCDFF1#64 :=
  ⟨⟨_, rfl, by decide +kernel⟩, _, rfl, by decide +kernel⟩
theorem witness_RkvClearedOnlyByReset :
    (∃ t, step (about .reset full) = .next t ∧ full.status.getLsbD 1 = true ∧ t.status.getLsbD 1 = false) ∧
    ∃ t, step (about (pseudoCmd .ksched) (full.setStatus 0x00)) = .next t ∧
      (full.setStatus 0x00).status.getLsbD 1 = false ∧ t.status.getLsbD 1 = true :=
  ⟨⟨_, rfl, by decide, by decide⟩, _, rfl, by decide, by decide⟩

/-- Every command, from a state and another one with the same operands and other contents elsewhere. -/
theorem witness_ResultsDependOnOperandsOnly :
    (SameOperands .ksched full { full with din := ⟨5, true⟩ } ∧ ∃ t, exec .ksched full = .next t) ∧
    (SameOperands .roundf full { full with key := ⟨5, true⟩ } ∧ ∃ t, exec .roundf full = .next t) ∧
    (SameOperands .decblk full { full with key := ⟨5, true⟩ } ∧ ∃ t, exec .decblk full = .next t) ∧
    (SameOperands .encblk full { full with status := 0x03 } ∧ ∃ t, exec .encblk full = .next t) ∧
    (SameOperands .ecbdec oneBlock { oneBlock with obuf := [(9, 1)] } ∧ ∃ t, exec .ecbdec oneBlock = .next t) ∧
    (SameOperands .ecbenc oneBlock { oneBlock with ibuf := oneBlock.ibuf ++ [(8, 1)] } ∧
      ∃ t, exec .ecbenc oneBlock = .next t) :=
  ⟨⟨rfl, _, rfl⟩, ⟨⟨rfl, rfl⟩, _, rfl⟩, ⟨⟨rfl, rfl, rfl⟩, _, rfl⟩, ⟨⟨rfl, rfl, by decide⟩, _, rfl⟩,
    ⟨⟨rfl, rfl, rfl, fun _ _ => rfl⟩, _, exec_oneBlock false⟩,
    ⟨⟨rfl, rfl, rfl, by decide +kernel⟩, _, exec_oneBlock true⟩⟩

/-- Two states that differ in the bits of an unwritten `KEY`: one step goes on, one faults. -/
theorem witness_UnwrittenValuesAreInvisible (a : Access) :
    SameVisible (about a State.reset) (about a { State.reset with key := ⟨5, false⟩ }) ∧
    (∃ t, step (about (.rd .key) State.reset) = .next t) ∧
    step (about (pseudoCmd .ksched) State.reset) = .fault .unwrittenOperand := by
  refine ⟨?_, ⟨_, rfl⟩, rfl⟩
  constructor
  case key => exact ⟨rfl, fun h => by simp [about, State.reset, Marked.unwritten] at h⟩
  case rk => exact fun _ => rfl
  all_goals first | rfl | exact ⟨rfl, fun _ => rfl⟩

/-- The invariant holds at reset, and a step from there goes on. -/
theorem witness_StepKeepsInvariant : Inv (about (.wr .key 5#64) State.reset) ∧
    ∃ t, step (about (.wr .key 5#64) State.reset) = .next t := by
  refine ⟨?_, _, rfl⟩
  constructor <;> simp [about, State.setPending, State.reset, Marked.unwritten, BufferInv, Memory.wf]

end Sys2Proof.Tests.Slice0
end

/-! SUPPORT. Family 10_state, the layer its proofs stand on: the decoder against the encoder, the masks of the reserved
bits, and what a step does with a register access. -/

namespace Sys2Proof.Machine

/-- A word is its three fields, written one after the other (30_encoding.md rule R71). -/
theorem fieldsOf_append (w : BitVec 8) : (fieldsOf w).zero ++ (fieldsOf w).op ++ (fieldsOf w).m = w := by
  simp only [fieldsOf]
  rw [BitVec.extractLsb'_append_extractLsb'_eq_extractLsb' (start₁ := 1) (len₁ := 3) rfl,
    BitVec.extractLsb'_append_extractLsb'_eq_extractLsb' (start₁ := 0) (len₁ := 1) rfl]
  exact BitVec.extractLsb'_eq_self

/-- Words with the same fields are the same word. -/
theorem fieldsOf_injective {w w' : BitVec 8} (h : fieldsOf w = fieldsOf w') : w = w' := by
  rw [← fieldsOf_append w, h, fieldsOf_append]

/-- Every command's word has the fields the format gives the command. -/
theorem fieldsOf_encode (i : Instr) : fieldsOf (encode i) = i.fields := by
  cases i with
  | ksched => exact Laws.Fields.ksched.1
  | roundf => exact Laws.Fields.roundf.1
  | decblk => exact Laws.Fields.decblk.1
  | encblk => exact Laws.Fields.encblk.1
  | ecbdec => exact Laws.Fields.ecbdec.1
  | ecbenc => exact Laws.Fields.ecbenc.1

/-- A unit selector and a mode bit select only the command whose fields they are. -/
theorem fields_of_select {op m : Nat} {i : Instr} (h : select op m = some i) :
    op = i.fields.op.toNat ∧ m = i.fields.m.toNat := by
  unfold select at h
  split at h <;> cases h <;> exact ⟨rfl, rfl⟩

/-- The `zero` field of every command is `0000`. -/
theorem fields_zero (i : Instr) : i.fields.zero = 0 := by cases i <;> rfl

/-- A word that decodes to a command has the command's fields. -/
theorem fieldsOf_of_decode {w : BitVec 8} {i : Instr} (h : decode w = .ok i) : fieldsOf w = i.fields := by
  simp only [decode] at h
  split at h
  case isTrue hzero =>
    split at h
    case h_1 j hj =>
      cases h
      obtain ⟨hop, hm⟩ := fields_of_select hj
      have hz : (fieldsOf w).zero = i.fields.zero := (beq_iff_eq.1 hzero).trans (fields_zero i).symm
      calc fieldsOf w = ⟨(fieldsOf w).zero, (fieldsOf w).op, (fieldsOf w).m⟩ := rfl
        _ = i.fields := by rw [hz, BitVec.eq_of_toNat_eq hop, BitVec.eq_of_toNat_eq hm]
    case h_2 => cases h
  case isFalse => cases h

/-- A word that decodes to a command is the word of that command. -/
theorem eq_encode_of_decode {w : BitVec 8} {i : Instr} (h : decode w = .ok i) : w = encode i :=
  fieldsOf_injective ((fieldsOf_of_decode h).trans (fieldsOf_encode i).symm)

/-- The word of a command decodes to the command. -/
@[simp] theorem decode_encode (i : Instr) : decode (encode i) = .ok i := by cases i <;> rfl

/-- The byte of an eight-bit row of the opcode table is the row's word. -/
theorem tableByte_toNat (w : BitVec 8) : tableByte 8 w.toNat = w := by
  simp [tableByte, Nat.mod_eq_of_lt w.isLt]

/-- Reading under the mask of `STATUS` keeps bits 1 and 0 and gives the reserved bits as 0. -/
theorem getLsbD_and_statusMask (v : BitVec 8) (i : Nat) :
    (v &&& statusMask).getLsbD i = (decide (i < 2) && v.getLsbD i) := by
  have hmask : statusMask.getLsbD i = decide (i < 2) := Nat.testBit_two_pow_sub_one 2 i
  rw [BitVec.getLsbD_and, hmask, Bool.and_comm]

/-- Reading or writing under the mask of `FCTL` keeps bits 8 to 0 and gives the reserved bits as 0. -/
theorem getLsbD_and_fctlMask (v : BitVec 16) (i : Nat) :
    (v &&& fctlMask).getLsbD i = (decide (i < 9) && v.getLsbD i) := by
  have hmask : fctlMask.getLsbD i = decide (i < 9) := Nat.testBit_two_pow_sub_one 9 i
  rw [BitVec.getLsbD_and, hmask, Bool.and_comm]

/-- An unwritten register no wider than a block reads as the low bits of the free value. -/
theorem readMarked_free {w : Nat} (hw : w ≤ 64) (r : Marked w) (d : Nat) (h : r.written = false) :
    readMarked r d = (Config.freeRegister d).extractLsb' 0 w := by
  rw [readMarked_unwritten r d h, BitVec.setWidth_eq_extractLsb' hw]

/-- An unwritten register of a block's width reads as the free value. -/
theorem readMarked_free_block (r : Marked 64) (d : Nat) (h : r.written = false) :
    readMarked r d = Config.freeRegister d := by
  rw [readMarked_unwritten r d h, BitVec.setWidth_eq]

section hostAccess
variable {s : State} {rest : List Access} {r : RegName}

/-- A step that reads a register gives the host what the register reads as, and changes only the host's record. -/
theorem step_rd {v : BitVec r.width} (hp : s.pending = .rd r :: rest) (hv : readRegister s r = v) :
    step s = .next (({ s with pending := rest } : State).addReading (.reg r v)) := by
  subst hv
  exact step_pending s _ rest hp

/-- A step that reads a data register gives the host its value when it is written. -/
theorem step_rd_written (r : RegName) (m : Marked r.width) (hr : readRegister s r = readMarked m s.draws)
    (hp : s.pending = .rd r :: rest) (hw : m.written = true) :
    step s = .next (({ s with pending := rest } : State).addReading (.reg r m.val)) :=
  step_rd hp (hr.trans (readMarked_written m s.draws hw))

/-- A step that writes a register performs the write on the state with the other accesses still to come. -/
theorem step_wr {v : BitVec r.width} (hp : s.pending = .wr r v :: rest) :
    step s = hostWrite r v { s with pending := rest } :=
  step_pending s _ rest hp

end hostAccess

/-- A word that decodes to a command is issued as that command. -/
theorem issue_of_decode {w : BitVec 8} {i : Instr} (s : State) (h : decode w = .ok i) : issue w s = exec i s := by
  rw [issue, h]

/-- Settles O4: a step performs the first access, and a write of `CMD` issues the word. -/
theorem stepRunsDecodedCommand : Obligations.StepRunsDecodedCommand := by
  refine ⟨fun s w rest i hp hd => ?decoded, fun s i => ?placed, fun s w rest _ hp _ => step_wr hp, step_idle⟩
  case decoded => exact (step_wr hp).trans (issue_of_decode _ hd)
  case placed =>
    have hp : (s.withFetchWord 8 (encode i).toNat).pending = .wr .cmd (encode i) :: s.pending := by
      rw [State.withFetchWord, tableByte_toNat, State.setPending_pending]
    exact (step_wr hp).trans (issue_of_decode _ (decode_encode i))

/-- Settles O6: a written register reads as its value, a reserved one as 0. -/
theorem hostReadReturnsRegister : Obligations.HostReadReturnsRegister := by
  intro s rest
  exact ⟨fun hp => step_rd hp rfl, fun hp => ⟨_, step_rd hp rfl, getLsbD_and_statusMask _⟩,
    step_rd_written .key s.key rfl, step_rd_written .din s.din rfl, step_rd_written .dout s.dout rfl,
    step_rd_written .rin s.rin rfl, step_rd_written .skin s.skin rfl, step_rd_written .fout s.fout rfl,
    fun hp => step_rd hp rfl, fun hp => ⟨_, step_rd hp rfl, getLsbD_and_fctlMask _⟩,
    fun _ hp => step_rd hp rfl, fun i => step_rd_written (.rk i) ⟨s.rk[i], statusRkv s⟩ rfl⟩

/-- Settles O7: an unwritten register reads as the free value of the read, cut to its width. -/
theorem hostReadOfUnwrittenIsFree : Obligations.HostReadOfUnwrittenIsFree := by
  intro s rest
  exact ⟨fun hp hw => step_rd hp (readMarked_free_block s.key _ hw),
    fun hp hw => step_rd hp (readMarked_free_block s.din _ hw),
    fun hp hw => step_rd hp (readMarked_free_block s.dout _ hw),
    fun hp hw => step_rd hp (readMarked_free (by decide) s.rin _ hw),
    fun hp hw => step_rd hp (readMarked_free (by decide) s.skin _ hw),
    fun hp hw => step_rd hp (readMarked_free (by decide) s.fout _ hw),
    fun i hp hw => step_rd hp (readMarked_free (by decide) ⟨s.rk[i], statusRkv s⟩ _ hw)⟩

/-- Settles O8: each write of a register is the operation `hostWrite` gives that register. -/
theorem hostWriteStoresRegister : Obligations.HostWriteStoresRegister := by
  intro s rest
  exact ⟨fun _ hp => step_wr hp, fun _ hp => step_wr hp, fun _ hp => step_wr hp, fun _ hp => step_wr hp,
    fun _ hp => step_wr hp, fun v hp => ⟨_, step_wr hp, getLsbD_and_fctlMask v⟩,
    fun _ hp => step_wr hp, fun _ hp => step_wr hp, fun _ hp => step_wr hp, fun _ _ hp => step_wr hp,
    fun _ _ hp => step_wr hp⟩

/-- Settles O11: the fields of the reset state, as written down. -/
theorem resetState : Obligations.ResetState :=
  ⟨rfl, rfl, rfl, rfl, rfl, rfl, rfl, rfl, rfl, fun _ => ⟨rfl, rfl⟩⟩

/-! SUPPORT. What the commands leave alone and what they do not look at: their operands, and `ERR`. -/

/-- Settles O52: each of the five ends of a command writes results, `RK` and `STATUS` only. -/
theorem commandsKeepTheirInputs : Obligations.CommandsKeepTheirInputs := by
  intro i s t h
  rcases exec_next i s t h with ⟨_, _, rfl⟩ | ⟨_, _, _, rfl⟩ | ⟨_, _, _, _, rfl⟩ | ⟨_, _, _, rfl⟩ |
    ⟨_, _, _, _, _, _, rfl⟩ <;> simp [ecbDone]

/-- Two values of `STATUS` that differ at most in `ERR`. -/
def SameButErr (v v' : BitVec 8) : Prop := ∀ i, 1 ≤ i → v.getLsbD i = v'.getLsbD i

section errHasNoEffect
variable {s : State} {v : BitVec 8}

/-- Ending a command overwrites `ERR`, so two values of `STATUS` that differ at most there end alike. -/
theorem withErr_congr (e : Bool) {v v' : BitVec 8} (h : SameButErr v v') :
    withErr e v = withErr e v' := by
  apply BitVec.eq_of_getLsbD_eq
  intro i _
  rcases Nat.eq_zero_or_pos i with rfl | hi
  · rw [withErr_err, withErr_err]
  · rw [withErr_other e v i hi, withErr_other e v' i hi, h i hi]

/-- `RKV ← 1` keeps two values of `STATUS` that differ at most in `ERR` so. -/
theorem withRkv_congr {v v' : BitVec 8} (h : SameButErr v v') :
    SameButErr (withRkv v) (withRkv v') := by
  intro i hi
  by_cases h1 : i = 1
  · rw [h1, withRkv_rkv, withRkv_rkv]
  · rw [withRkv_other v i h1, withRkv_other v' i h1, h i hi]

/-- What `ERR` was is lost when a command succeeds. -/
theorem succeed_setStatus (h : SameButErr v s.status) : (s.setStatus v).succeed = s.succeed :=
  congrArg s.setStatus (withErr_congr false h)

/-- What `ERR` was is lost when the exception is taken. -/
theorem raiseInvalidInput_setStatus (h : SameButErr v s.status) :
    (s.setStatus v).raiseInvalidInput = s.raiseInvalidInput :=
  congrArg s.setStatus (withErr_congr true h)

/-- The block command looks at `RKV` only, and loses what `ERR` was. -/
theorem cryptBlock_setStatus (e : Bool) (h : SameButErr v s.status) :
    cryptBlock e (s.setStatus v) = cryptBlock e s := by
  have hend : ∀ x, ((s.setStatus v).setDout x).succeed = (s.setDout x).succeed :=
    fun x => succeed_setStatus (s := s.setDout x) h
  have hrkv : statusRkv (s.setStatus v) = statusRkv s := h 1 le_rfl
  simp only [cryptBlock, needSchedule, hrkv, hend, State.setStatus_rk, State.setStatus_din]

/-- An ECB command derives the schedule anew, does not look at `STATUS`, and loses what `ERR` was. -/
theorem ecbCommand_setStatus (e : Bool) (h : SameButErr v s.status) :
    ecbCommand e (s.setStatus v) = ecbCommand e s := by
  have hend : ∀ key m, (((s.setStatus v).deriveRoundKeys key).setObuf m).succeed =
      ((s.deriveRoundKeys key).setObuf m).succeed :=
    fun key m => succeed_setStatus (s := (s.deriveRoundKeys key).setObuf m) (withRkv_congr h)
  have hvalid : ecbValid (s.setStatus v) = ecbValid s := rfl
  simp only [ecbCommand, hvalid, hend, raiseInvalidInput_setStatus h, State.setStatus_key, State.setStatus_ibuf,
    State.setStatus_len, State.setStatus_obuf]

/-- A command answers the same whatever `ERR` was. -/
theorem exec_setStatus (i : Instr) (h : SameButErr v s.status) :
    exec i (s.setStatus v) = exec i s := by
  cases i with
  | ksched =>
    have hend : ∀ key, ((s.setStatus v).deriveRoundKeys key).succeed = (s.deriveRoundKeys key).succeed :=
      fun key => succeed_setStatus (s := s.deriveRoundKeys key) (withRkv_congr h)
    simp only [exec, execKsched, hend, State.setStatus_key]
  | roundf =>
    have hend : ∀ x, ((s.setStatus v).setFout x).succeed = (s.setFout x).succeed :=
      fun x => succeed_setStatus (s := s.setFout x) h
    simp only [exec, execRoundf, hend, State.setStatus_rin, State.setStatus_skin]
  | decblk => exact cryptBlock_setStatus false h
  | encblk => exact cryptBlock_setStatus true h
  | ecbdec => exact ecbCommand_setStatus false h
  | ecbenc => exact ecbCommand_setStatus true h

end errHasNoEffect

/-- Settles O51: no command looks at `ERR`, and each end of one overwrites it. -/
theorem errHasNoEffect : Obligations.ErrHasNoEffect := by
  intro w s v h
  change issue w (s.setStatus v) = issue w s
  unfold issue
  split
  · exact exec_setStatus _ h
  · exact congrArg _ (raiseInvalidInput_setStatus h)

/-! SUPPORT. The round keys and `RKV`: the three commands that derive them, and that only reset writes them besides. -/

/-- What the derivation by the command word `w` leaves: the whole schedule of the written `KEY`, `RKV` 1 and `ERR` 0. -/
structure DerivesRoundKeys (w : BitVec 8) (s t : State) : Prop where
  word : w ∈ [0x02#8, 0x08#8, 0x09#8]
  written : s.key.written = true
  rk : t.rk = ks s.key.val
  rkv : t.status.getLsbD 1 = true
  err : t.status.getLsbD 0 = false

/-- A step from `s` to `t` left the round keys and `RKV` alone. -/
def KeepsRoundKeys (s t : State) : Prop := t.rk = s.rk ∧ t.status.getLsbD 1 = s.status.getLsbD 1

/-- A command derives the schedule of `KEY`, or leaves the round keys and `RKV` alone. -/
theorem exec_derives_or_keeps {i : Instr} {s t : State} (h : exec i s = .next t) :
    DerivesRoundKeys (encode i) s t ∨ KeepsRoundKeys s t := by
  rcases exec_next i s t h with ⟨rfl, hk, rfl⟩ | ⟨_, _, _, rfl⟩ | ⟨_, _, _, _, rfl⟩ | ⟨_, _, _, rfl⟩ |
    ⟨e, data, rfl, _, hk, _, rfl⟩
  · obtain ⟨herr, hrkv, _⟩ := withErr_withRkv_fields false s.status
    exact .inl ⟨by decide, hk, rfl, hrkv, herr⟩
  · exact .inr ⟨rfl, withErr_rkv false _⟩
  · exact .inr ⟨rfl, withErr_rkv false _⟩
  · exact .inr ⟨rfl, withErr_rkv true _⟩
  · obtain ⟨herr, hrkv, _⟩ := withErr_withRkv_fields false s.status
    exact .inl ⟨by cases e <;> decide, hk, rfl, hrkv, herr⟩

/-- Issuing a word derives the schedule of `KEY`, or leaves the round keys and `RKV` alone. -/
theorem issue_derives_or_keeps {w : BitVec 8} {s t : State} (h : issue w s = .next t) :
    DerivesRoundKeys w s t ∨ KeepsRoundKeys s t := by
  rcases issue_next w s t h with ⟨i, hd, hex⟩ | ⟨_, rfl⟩
  · exact eq_encode_of_decode hd ▸ exec_derives_or_keeps hex
  · exact .inr ⟨rfl, withErr_rkv true _⟩

/-- After reset there is no schedule. -/
theorem rkv_applyReset (s : State) : (applyReset s).status.getLsbD 1 = false := BitVec.getLsbD_zero

/-- A step derives the schedule of `KEY`, is the reset event, or leaves the round keys and `RKV` alone. -/
theorem step_roundKeys {s t : State} (h : step s = .next t) :
    (∃ (w : BitVec 8) (rest : List Access), s.pending = .wr .cmd w :: rest ∧ DerivesRoundKeys w s t) ∨
      (∃ rest, s.pending = .reset :: rest) ∨ KeepsRoundKeys s t := by
  rcases step_next s t h with ⟨_, rfl⟩ | ⟨a, rest, hp, ha⟩
  · exact .inr (.inr ⟨rfl, rfl⟩)
  rcases performAccess_next a _ t ha with ⟨w, rfl, hw⟩ | ⟨rfl, _⟩ | hkeep
  · rcases issue_derives_or_keeps hw with ⟨hword, hk, hrk, hrkv, herr⟩ | hkeep
    · exact .inl ⟨w, rest, hp, hword, hk, hrk, hrkv, herr⟩
    · exact .inr (.inr hkeep)
  · exact .inr (.inl ⟨rest, hp⟩)
  · rcases hkeep with ⟨_, rfl⟩ | ⟨_, rfl⟩ | ⟨_, rfl⟩ | ⟨_, rfl⟩ | ⟨_, rfl⟩ | ⟨_, rfl⟩ | ⟨_, _, _, rfl⟩ |
        ⟨_, rfl⟩ | rfl <;>
      exact .inr (.inr ⟨rfl, rfl⟩)

/-- Settles O55: where `RK` changed, the step did not keep the round keys. -/
theorem roundKeysChangeOnlyByDerivation : Obligations.RoundKeysChangeOnlyByDerivation := by
  intro s t h hne
  rcases step_roundKeys h with ⟨w, rest, hp, hd⟩ | hreset | hkeep
  · exact .inl ⟨w, rest, hp, hd.word, hd.written, hd.rk, hd.rkv, hd.err⟩
  · exact .inr hreset
  · exact absurd hkeep.1 hne

/-- Settles O56: a derivation leaves `RKV` at 1 and reset leaves it at 0; every other step keeps it. -/
theorem rkvClearedOnlyByReset : Obligations.RkvClearedOnlyByReset := by
  intro s t h
  rcases step_roundKeys h with ⟨w, rest, hp, hd⟩ | ⟨rest, hp⟩ | ⟨_, hrkv⟩
  · exact ⟨fun _ h0 => (Bool.false_ne_true (h0.symm.trans hd.rkv)).elim,
      fun _ _ => ⟨hd.rk, w, rest, hp, hd.word⟩⟩
  · have hreset : Host.Outcome.next (applyReset (s.setPending rest)) = .next t :=
      (step_pending s _ rest hp).symm.trans h
    cases hreset
    exact ⟨fun _ _ => ⟨rest, hp⟩, fun _ h1 => (Bool.false_ne_true ((rkv_applyReset _).symm.trans h1)).elim⟩
  · exact ⟨fun h1 h0 => (Bool.false_ne_true (h0.symm.trans (hrkv.trans h1))).elim,
      fun h0 h1 => (Bool.false_ne_true (h0.symm.trans (hrkv.symm.trans h1))).elim⟩

/-! SUPPORT. The invariant: what each operation on the state keeps of it. -/

/-- A write within the capacity keeps a buffer canonical and within its capacity. -/
theorem BufferInv.memWrite {m : Memory} {off : Nat} {bs : List Byte} (h : BufferInv m) (hr : InRange off bs.length) :
    BufferInv (memWrite m off bs) := by
  obtain ⟨hwf, hcap⟩ := h
  refine ⟨memWrite_wf bs m off hwf, fun c hc k hk => ?_⟩
  rcases mem_memWrite bs m off c hc with ⟨hlo, hhi⟩ | hc
  · rcases hr with h0 | hr
    · omega
    · exact Nat.lt_of_lt_of_le hhi (hr k hk)
  · exact hcap c hc k hk

/-- The block loop over a length within the capacity keeps a buffer canonical and within its capacity. -/
theorem BufferInv.ecbStores {m : Memory} {n : Nat} (K : Schedule) (e : Bool) (data : List Byte) (h : BufferInv m)
    (hn : withinCapacity n = true) : BufferInv ((List.range (n / 8)).foldl (ecbStore K e data) m) := by
  obtain ⟨hwf, hcap⟩ := h
  refine ⟨ecbStore_foldl_wf K e data _ m hwf, fun c hc k hk => ?_⟩
  rcases mem_ecbStore_foldl K e data _ m c hc with hb | hc
  · have hblock : c.1 / 8 < n / 8 := List.mem_range.1 hb
    have hle : n ≤ k := (withinCapacity_iff n).1 hn k hk
    omega
  · exact hcap c hc k hk

/-- The empty buffer is canonical and within its capacity. -/
theorem BufferInv.nil : BufferInv [] := ⟨by decide, by simp⟩

namespace Inv
variable {s t : State}

/-! The registers the invariant does not look at, and the host's record. -/

theorem setLen (h : Inv s) (v : BitVec 32) : Inv (s.setLen v) := { h with }
theorem setKey (h : Inv s) (v : BitVec 64) : Inv (s.setKey v) := { h with }
theorem setDin (h : Inv s) (v : BitVec 64) : Inv (s.setDin v) := { h with }
theorem setRin (h : Inv s) (v : BitVec 32) : Inv (s.setRin v) := { h with }
theorem setSkin (h : Inv s) (v : BitVec 48) : Inv (s.setSkin v) := { h with }
theorem setFout (h : Inv s) (v : BitVec 32) : Inv (s.setFout v) := { h with }
theorem setPending (h : Inv s) (l : List Access) : Inv (s.setPending l) := { h with }
theorem addReading (h : Inv s) (r : Reading) : Inv (s.addReading r) := { h with }

/-- With every buffer and data register unwritten, `STATUS` and `FCTL` at 0, it holds whatever else the state is. -/
theorem applyReset (s : State) : Inv (applyReset s) where
  status_reserved _ _ := BitVec.getLsbD_zero
  fctl_reserved _ _ := BitVec.getLsbD_zero
  ibuf_ok := .nil
  obuf_ok := .nil
  schedule_of_key h := (Bool.false_ne_true ((rkv_applyReset s).symm.trans h)).elim
  dout_needs_schedule h := (Bool.false_ne_true h).elim
  obuf_needs_schedule h := (h rfl).elim

/-- A write of `FCTL` leaves its reserved bits 0. -/
theorem setFctl (h : Inv s) (v : BitVec 16) : Inv (s.setFctl v) :=
  { h with
    fctl_reserved := fun i hi => by
      rw [State.setFctl_fctl, getLsbD_and_fctlMask, decide_eq_false (by omega), Bool.false_and] }

/-- `IBUF` may be replaced by a buffer that is canonical and within its capacity. -/
theorem setIbuf (h : Inv s) {m : Memory} (hm : BufferInv m) : Inv (s.setIbuf m) := { h with ibuf_ok := hm }

/-- `OBUF` may be replaced by such a buffer while there is a schedule. -/
theorem setObuf (h : Inv s) {m : Memory} (hm : BufferInv m) (hrkv : s.status.getLsbD 1 = true) : Inv (s.setObuf m) :=
  { h with
    obuf_ok := hm
    obuf_needs_schedule := fun _ => hrkv }

/-- `DOUT` may be written while there is a schedule. -/
theorem setDout (h : Inv s) (v : Block) (hrkv : s.status.getLsbD 1 = true) : Inv (s.setDout v) :=
  { h with dout_needs_schedule := fun _ => hrkv }

/-- Deriving the round keys sets `RKV` with the schedule of a key in `RK`. -/
theorem deriveRoundKeys (h : Inv s) (key : Block) : Inv (s.deriveRoundKeys key) :=
  { h with
    status_reserved := fun i hi => (withRkv_other s.status i (by omega)).trans (h.status_reserved i hi)
    schedule_of_key := fun _ => ⟨key, rfl⟩
    dout_needs_schedule := fun _ => withRkv_rkv s.status
    obuf_needs_schedule := fun _ => withRkv_rkv s.status }

/-- The outcome of a command is in `ERR`, which the invariant does not look at. -/
theorem setErr (h : Inv s) (e : Bool) : Inv (s.setStatus (withErr e s.status)) where
  status_reserved i hi := (withErr_other e s.status i (by omega)).trans (h.status_reserved i hi)
  fctl_reserved := h.fctl_reserved
  ibuf_ok := h.ibuf_ok
  obuf_ok := h.obuf_ok
  schedule_of_key hrkv := h.schedule_of_key ((withErr_rkv e s.status).symm.trans hrkv)
  dout_needs_schedule hw := (withErr_rkv e s.status).trans (h.dout_needs_schedule hw)
  obuf_needs_schedule hw := (withErr_rkv e s.status).trans (h.obuf_needs_schedule hw)

/-- A command that ends in `Success` keeps the invariant when what it stored does. -/
theorem succeed (h : Inv s) : Inv s.succeed := h.setErr false

/-- The exception keeps the invariant. -/
theorem raiseInvalidInput (h : Inv s) : Inv s.raiseInvalidInput := h.setErr true

/-- A successful ECB command keeps the invariant: it derives the schedule before it writes `OBUF`. -/
theorem ecbDone (h : Inv s) (e : Bool) (data : List Byte) (hvalid : ecbValid s = true) : Inv (ecbDone e s data) := by
  obtain ⟨_, _, _, _, hfits⟩ := (ecbValid_iff_checks s).1 hvalid
  exact ((h.deriveRoundKeys s.key.val).setObuf (h.obuf_ok.ecbStores _ e data hfits) (withRkv_rkv s.status)).succeed

/-- Every command keeps the invariant. -/
theorem exec {i : Instr} (h : Inv s) (hex : exec i s = .next t) : Inv t := by
  rcases exec_next i s t hex with ⟨_, _, rfl⟩ | ⟨_, _, _, rfl⟩ | ⟨_, _, hrkv, _, rfl⟩ | ⟨_, _, _, rfl⟩ |
    ⟨e, data, _, hvalid, _, _, rfl⟩
  · exact (h.deriveRoundKeys s.key.val).succeed
  · exact (h.setFout _).succeed
  · exact (h.setDout _ hrkv).succeed
  · exact h.raiseInvalidInput
  · exact h.ecbDone e data hvalid

/-- Issuing a word keeps the invariant. -/
theorem issue {w : BitVec 8} (h : Inv s) (hw : issue w s = .next t) : Inv t := by
  rcases issue_next w s t hw with ⟨i, _, hex⟩ | ⟨_, rfl⟩
  · exact h.exec hex
  · exact h.raiseInvalidInput

/-- Every access of the host keeps the invariant. -/
theorem performAccess {a : Access} (h : Inv s) (ha : performAccess a s = .next t) : Inv t := by
  rcases performAccess_next a s t ha with ⟨w, _, hw⟩ | ⟨_, rfl⟩ | ⟨v, rfl⟩ | ⟨v, rfl⟩ | ⟨v, rfl⟩ | ⟨v, rfl⟩ | ⟨v, rfl⟩ |
    ⟨v, rfl⟩ | ⟨off, bs, hr, rfl⟩ | ⟨r, rfl⟩ | rfl
  · exact h.issue hw
  · exact .applyReset s
  · exact h.setKey v
  · exact h.setDin v
  · exact h.setRin v
  · exact h.setSkin v
  · exact h.setLen v
  · exact h.setFctl v
  · exact h.setIbuf (h.ibuf_ok.memWrite hr)
  · exact h.addReading r
  · exact h

end Inv

/-- Settles O60: the first pending access keeps the invariant, and so does an idle step. -/
theorem stepKeepsInvariant : Obligations.StepKeepsInvariant := by
  intro s t h hstep
  rcases step_next s t hstep with ⟨_, rfl⟩ | ⟨a, rest, _, ha⟩
  · exact h
  · exact (h.setPending rest).performAccess ha

/-- Settles O59: the state after reset is what the reset event makes of it. -/
theorem invariantAtReset : Obligations.InvariantAtReset := Inv.applyReset State.reset

/-! SUPPORT. Two states that differ only in the bits of unwritten registers: each operation, done to both, gives two
such states again, or the same stop. -/

/-- Two registers that look the same are read alike by the host. -/
theorem SameReg.readMarked {w : Nat} {r r' : Marked w} (h : SameReg r r') {d d' : Nat} (hd : d = d') :
    readMarked r d = readMarked r' d' := by
  subst hd
  obtain ⟨hmark, hval⟩ := h
  cases hw : r.written with
  | true => rw [readMarked_written r d hw, readMarked_written r' d (hmark ▸ hw), hval hw]
  | false => rw [readMarked_unwritten r d hw, readMarked_unwritten r' d (hmark ▸ hw)]

/-- A register looks the same as itself. -/
theorem SameReg.refl {w : Nat} (r : Marked w) : SameReg r r := ⟨rfl, fun _ => rfl⟩

/-- Two outcomes nothing can tell apart: next states that differ only in unwritten registers, or the same fault. -/
inductive SameOutcome : Host.Outcome State Fault Refusal → Host.Outcome State Fault Refusal → Prop where
  | next {t t' : State} (h : SameVisible t t') : SameOutcome (.next t) (.next t')
  | fault (f : Fault) : SameOutcome (.fault f) (.fault f)

/-- What answers like a next state is a next state that differs from it only in unwritten registers. -/
theorem SameOutcome.of_next {t : State} {o : Host.Outcome State Fault Refusal} (h : SameOutcome (.next t) o) :
    ∃ t', o = .next t' ∧ SameVisible t t' := by
  cases h with
  | next h => exact ⟨_, rfl, h⟩

/-- What answers like a fault is that fault. -/
theorem SameOutcome.of_fault {f : Fault} {o : Host.Outcome State Fault Refusal} (h : SameOutcome (.fault f) o) :
    o = .fault f := by
  cases h with
  | fault => rfl

/-- An operand that looks the same is read alike. -/
theorem SameReg.needOperand {w : Nat} {r r' : Marked w} (h : SameReg r r')
    {go go' : BitVec w → Host.Outcome State Fault Refusal} (hgo : SameOutcome (go r.val) (go' r.val)) :
    SameOutcome (needOperand r go) (needOperand r' go') := by
  obtain ⟨hmark, hval⟩ := h
  cases hw : r.written with
  | true => rwa [needOperand_written r go hw, needOperand_written r' go' (hmark ▸ hw), ← hval hw]
  | false =>
    rw [needOperand_unwritten r go hw, needOperand_unwritten r' go' (hmark ▸ hw)]
    exact .fault _

namespace SameVisible
variable {s s' : State}

/-! Each operation on the state, done to both. -/

/-- `ERR` is written alike, and the rest of `STATUS` was the same. -/
theorem setErr (h : SameVisible s s') (e : Bool) :
    SameVisible (s.setStatus (withErr e s.status)) (s'.setStatus (withErr e s'.status)) :=
  { h with
    status := congrArg (withErr e) h.status
    rk := fun hrkv => h.rk ((withErr_rkv e s.status).symm.trans hrkv) }

theorem succeed (h : SameVisible s s') : SameVisible s.succeed s'.succeed := h.setErr false

theorem raiseInvalidInput (h : SameVisible s s') : SameVisible s.raiseInvalidInput s'.raiseInvalidInput := h.setErr true

/-- Both states get the same round keys. -/
theorem deriveRoundKeys (h : SameVisible s s') (key : Block) :
    SameVisible (s.deriveRoundKeys key) (s'.deriveRoundKeys key) :=
  { h with
    status := congrArg withRkv h.status
    rk := fun _ => rfl }

theorem setFout (h : SameVisible s s') (v : BitVec 32) : SameVisible (s.setFout v) (s'.setFout v) :=
  { h with fout := .refl _ }

theorem setDout (h : SameVisible s s') (v : BitVec 64) : SameVisible (s.setDout v) (s'.setDout v) :=
  { h with dout := .refl _ }

theorem setObuf (h : SameVisible s s') (m : Memory) : SameVisible (s.setObuf m) (s'.setObuf m) :=
  { h with obuf := rfl }

theorem setPending (h : SameVisible s s') (l : List Access) : SameVisible (s.setPending l) (s'.setPending l) :=
  { h with pending := rfl }

theorem addReading (h : SameVisible s s') (r : Reading) : SameVisible (s.addReading r) (s'.addReading r) :=
  { h with
    seen := congrArg (r :: ·) h.seen
    draws := congrArg (· + 1) h.draws }

/-- Reset gives both states the same spec's state; the host's record was the same. -/
theorem applyReset (h : SameVisible s s') : SameVisible (applyReset s) (applyReset s') where
  status := rfl
  len := rfl
  fctl := rfl
  key := .refl _
  din := .refl _
  dout := .refl _
  rin := .refl _
  skin := .refl _
  fout := .refl _
  rk _ := rfl
  ibuf := rfl
  obuf := rfl
  pending := h.pending
  seen := h.seen
  draws := h.draws

/-- The validity of an ECB command is the same: it looks at `FCTL` and `LEN`. -/
theorem ecbValid (h : SameVisible s s') : ecbValid s = ecbValid s' := by
  rw [Bool.eq_iff_iff, ecbValid_iff_checks, ecbValid_iff_checks]
  simp only [fctlDpres, fctlKlen, h.fctl, h.len]

/-- A block command answers alike. -/
theorem cryptBlock (h : SameVisible s s') (e : Bool) : SameOutcome (cryptBlock e s) (cryptBlock e s') := by
  unfold Machine.cryptBlock needSchedule
  have hrkv : statusRkv s = statusRkv s' := congrArg (·.getLsbD 1) h.status
  by_cases h1 : statusRkv s = true
  · rw [if_pos h1, if_pos (hrkv ▸ h1), ← h.rk h1]
    exact h.din.needOperand (.next (h.setDout _).succeed)
  · rw [if_neg h1, if_neg (hrkv ▸ h1)]
    exact .fault _

/-- An ECB command answers alike. -/
theorem ecbCommand (h : SameVisible s s') (e : Bool) : SameOutcome (ecbCommand e s) (ecbCommand e s') := by
  unfold Machine.ecbCommand
  rw [← h.ecbValid, ← h.len, ← h.ibuf, ← h.obuf]
  split
  · refine h.key.needOperand ?_
    unfold needData
    split
    · exact .next ((h.deriveRoundKeys _).setObuf _).succeed
    · exact .fault _
  · exact .next h.raiseInvalidInput

/-- `KSCHED` answers alike. -/
theorem execKsched (h : SameVisible s s') : SameOutcome (execKsched s) (execKsched s') := by
  unfold Machine.execKsched
  exact h.key.needOperand (.next (h.deriveRoundKeys _).succeed)

/-- `ROUNDF` answers alike, its second operand read like its first. -/
theorem execRoundf (h : SameVisible s s') : SameOutcome (execRoundf s) (execRoundf s') := by
  unfold Machine.execRoundf
  exact h.rin.needOperand (h.skin.needOperand (.next (h.setFout _).succeed))

/-- Every command answers alike. -/
theorem exec (h : SameVisible s s') (i : Instr) : SameOutcome (exec i s) (exec i s') := by
  cases i with
  | ksched => exact h.execKsched
  | roundf => exact h.execRoundf
  | decblk => exact h.cryptBlock false
  | encblk => exact h.cryptBlock true
  | ecbdec => exact h.ecbCommand false
  | ecbenc => exact h.ecbCommand true

/-- Issuing a word is answered alike. -/
theorem issue (h : SameVisible s s') (w : BitVec 8) : SameOutcome (issue w s) (issue w s') := by
  unfold Machine.issue
  split
  · exact h.exec _
  · exact .next h.raiseInvalidInput

/-- A host write of a register does the same to both. -/
theorem hostWrite (h : SameVisible s s') (r : RegName) (v : BitVec r.width) :
    SameOutcome (hostWrite r v s) (hostWrite r v s') := by
  cases r with
  | cmd => exact h.issue v
  | key => exact .next { h with key := .refl _ }
  | din => exact .next { h with din := .refl _ }
  | rin => exact .next { h with rin := .refl _ }
  | skin => exact .next { h with skin := .refl _ }
  | len => exact .next { h with len := rfl }
  | fctl => exact .next { h with fctl := rfl }
  | status | dout | fout | reserved | rk => exact .next h

/-- A host read of a register returns the same from both. -/
theorem readRegister (h : SameVisible s s') (r : RegName) : readRegister s r = readRegister s' r := by
  cases r with
  | cmd | reserved => rfl
  | status => exact congrArg (· &&& statusMask) h.status
  | fctl => exact congrArg (· &&& fctlMask) h.fctl
  | len => exact h.len
  | key => exact h.key.readMarked h.draws
  | din => exact h.din.readMarked h.draws
  | dout => exact h.dout.readMarked h.draws
  | rin => exact h.rin.readMarked h.draws
  | skin => exact h.skin.readMarked h.draws
  | fout => exact h.fout.readMarked h.draws
  | rk i =>
    have hsubkey : SameReg ⟨s.rk[i], statusRkv s⟩ ⟨s'.rk[i], statusRkv s'⟩ :=
      ⟨congrArg (·.getLsbD 1) h.status, fun hrkv => congrArg (·[i]) (h.rk hrkv)⟩
    exact hsubkey.readMarked h.draws

/-- A host read of a buffer returns the same from both. -/
theorem readBuffer (h : SameVisible s s') (b : BufName) (off n : Nat) :
    readBuffer s b off n = readBuffer s' b off n := by
  have hbuf : bufferOf s b = bufferOf s' b := by
    cases b with
    | ibuf => exact h.ibuf
    | obuf => exact h.obuf
  rw [Machine.readBuffer, Machine.readBuffer, hbuf, h.draws]

/-- A host write of bytes does the same to both. -/
theorem writeBuffer (h : SameVisible s s') (b : BufName) (off : Nat) (bs : List Byte) :
    SameVisible (writeBuffer s b off bs) (writeBuffer s' b off bs) := by
  cases b with
  | ibuf => exact { h with ibuf := congrArg (memWrite · off bs) h.ibuf }
  | obuf => exact h

/-- Every access of the host does the same to both, and returns the same. -/
theorem performAccess (h : SameVisible s s') (a : Access) : SameOutcome (performAccess a s) (performAccess a s') := by
  cases a with
  | wr r v => exact h.hostWrite r v
  | rd r =>
    have hread := h.addReading (.reg r (Machine.readRegister s r))
    exact .next (by rwa [← h.readRegister r])
  | wrm b off bs =>
    simp only [Machine.performAccess]
    split
    · exact .next (h.writeBuffer b off bs)
    · exact .fault _
  | rdm b off n =>
    simp only [Machine.performAccess, ← h.readBuffer b off n]
    split
    · exact .next (h.addReading _)
    · exact .fault _
  | reset => exact .next h.applyReset

/-- A step from both is answered alike. -/
theorem step (h : SameVisible s s') : SameOutcome (step s) (step s') := by
  unfold Machine.step
  rw [← h.pending]
  split
  · exact .next h
  · exact (h.setPending _).performAccess _

end SameVisible

/-- Settles O58: from both states a step is answered alike, whether it goes on or stops. -/
theorem unwrittenValuesAreInvisible : Obligations.UnwrittenValuesAreInvisible := by
  intro s s' h
  exact ⟨fun t ht => (ht ▸ h.step).of_next, fun f hf => (hf ▸ h.step).of_fault⟩

end Sys2Proof.Machine

/-! SUPPORT. Family 20_memory. The host's own record: what an access leaves of it. -/

namespace Sys2Proof.Machine

section hostRecord
variable {s t : State}

/-- The accesses still to come and what the host has been given are as they were. -/
def KeepsHost (s t : State) : Prop := t.pending = s.pending ∧ t.seen = s.seen

/-- Issuing a word is nothing to the host: a command keeps its record, and so does the exception. -/
theorem issue_keepsHost {w : BitVec 8} (h : issue w s = .next t) : KeepsHost s t := by
  rcases issue_next w s t h with ⟨i, _, hex⟩ | ⟨_, rfl⟩
  · obtain ⟨_, _, _, _, _, _, _, hpending, hseen, _⟩ := commandsKeepTheirInputs i s t hex
    exact ⟨hpending, hseen⟩
  · exact ⟨rfl, rfl⟩

/-- A write of a register gives the host nothing. -/
theorem hostWrite_keepsHost {r : RegName} {v : BitVec r.width} (h : hostWrite r v s = .next t) : KeepsHost s t := by
  rcases hostWrite_next r v s t h with ⟨w, _, hw⟩ | ⟨_, rfl⟩ | ⟨_, rfl⟩ | ⟨_, rfl⟩ | ⟨_, rfl⟩ |
    ⟨_, rfl⟩ | ⟨_, rfl⟩ | rfl
  · exact issue_keepsHost hw
  all_goals exact ⟨rfl, rfl⟩

/-- A write of bytes gives the host nothing. -/
theorem writeBuffer_keepsHost (s : State) (b : BufName) (off : Nat) (bs : List Byte) :
    KeepsHost s (writeBuffer s b off bs) := by
  cases b <;> exact ⟨rfl, rfl⟩

end hostRecord

/-! SUPPORT. The host's accesses to the buffers: inside the capacity the bytes go in and out, outside it they stop. -/

section bufferAccess
variable {s : State} {b : BufName} {off : Nat}

/-- A write of bytes that all exist is performed on the buffer. -/
theorem performAccess_wrm {bs : List Byte} (hr : InRange off bs.length) :
    performAccess (.wrm b off bs) s = .next (writeBuffer s b off bs) :=
  if_pos ((inBuffer_iff off bs.length).2 hr)

/-- A write of a byte that does not exist stops (log 7). -/
theorem performAccess_wrm_outside {bs : List Byte} (hr : ¬InRange off bs.length) :
    performAccess (.wrm b off bs) s = .fault .outsideBuffer :=
  if_neg (mt (inBuffer_iff off bs.length).1 hr)

/-- A read of bytes that all exist gives the host what the buffer holds. -/
theorem performAccess_rdm {n : Nat} (hr : InRange off n) :
    performAccess (.rdm b off n) s = .next (s.addReading (.bytes b off (readBuffer s b off n))) :=
  if_pos ((inBuffer_iff off n).2 hr)

/-- A read of a byte that does not exist stops (log 7). -/
theorem performAccess_rdm_outside {n : Nat} (hr : ¬InRange off n) :
    performAccess (.rdm b off n) s = .fault .outsideBuffer :=
  if_neg (mt (inBuffer_iff off n).1 hr)

/-- A buffer after a wide write: the new bytes in their range, the old ones everywhere else. -/
theorem read_memWrite (m : Memory) (off : Nat) (bs : List Byte) (a : Nat) :
    (memWrite m off bs).read a = if off ≤ a ∧ a < off + bs.length then bs[a - off]? else m.read a := by
  split
  case isTrue hin =>
    obtain ⟨k, rfl⟩ := Nat.exists_eq_add_of_le hin.1
    have hk : k < bs.length := by omega
    rw [read_memWrite_inside bs m off k hk, Nat.add_sub_cancel_left, List.getElem?_eq_getElem hk]
  case isFalse hout => exact read_memWrite_outside bs m off a (by omega)

/-- A read of `n` bytes returns `n` bytes. -/
@[simp] theorem readBuffer_length (s : State) (b : BufName) (off n : Nat) : (readBuffer s b off n).length = n := by
  simp [readBuffer]

/-- Byte `k` of a read: the byte at its offset, or the free value of that read and offset where none is written. -/
theorem readBuffer_getElem? {n k : Nat} (hk : k < n) :
    (readBuffer s b off n)[k]? = some (((bufferOf s b).read (off + k)).getD (Config.freeByte s.draws (off + k))) := by
  simp [readBuffer, hk]

/-- A buffer by its name, as the statements write it. -/
theorem bufferOf_eq_ite (s : State) (b : BufName) : bufferOf s b = if b = .ibuf then s.ibuf else s.obuf := by
  cases b <;> rfl

end bufferAccess

/-- Performing an access takes none of those still to come, and gives the host what that access is to give. -/
theorem performAccess_givesHost {a : Access} {s t : State} (h : performAccess a s = .next t) :
    t.pending = s.pending ∧ GivesHost a s t := by
  cases a with
  | wr r v => exact hostWrite_keepsHost h
  | rd r => cases h; exact ⟨rfl, _, rfl⟩
  | wrm b off bs =>
    by_cases hr : InRange off bs.length
    · cases (performAccess_wrm hr).symm.trans h
      exact writeBuffer_keepsHost s b off bs
    · cases (performAccess_wrm_outside hr).symm.trans h
  | rdm b off n =>
    by_cases hr : InRange off n
    · cases (performAccess_rdm hr).symm.trans h
      exact ⟨rfl, _, readBuffer_length s b off n, rfl⟩
    · cases (performAccess_rdm_outside hr).symm.trans h
  | reset => cases h; exact ⟨rfl, rfl⟩

/-- Settles O5: the step is the first access, performed with the rest still to come. -/
theorem stepPerformsOneAccess : Obligations.StepPerformsOneAccess := by
  intro s a rest hp
  have hstep : step s = performAccess a (s.setPending rest) := step_pending s a rest hp
  refine ⟨hstep, fun t ht => ?_⟩
  obtain ⟨hpending, hgives⟩ := performAccess_givesHost (hstep.symm.trans ht)
  exact ⟨hpending, by cases a <;> exact hgives⟩

/-- Settles O9: a write that exists is `memWrite` on `IBUF` and nothing on `OBUF`. -/
theorem hostBufferWrite : Obligations.HostBufferWrite := by
  intro s rest off bs
  exact ⟨fun hp hr => ⟨_, (step_pending s _ rest hp).trans (performAccess_wrm hr), read_memWrite s.ibuf off bs⟩,
    fun hp hr => (step_pending s _ rest hp).trans (performAccess_wrm hr),
    fun b hp hr => (step_pending s _ rest hp).trans (performAccess_wrm_outside hr)⟩

/-- Settles O10: a read that exists gives each byte, or the free value where none is written. -/
theorem hostBufferRead : Obligations.HostBufferRead := by
  intro s rest b off n hp
  refine ⟨fun hr => ⟨_, (step_pending s _ rest hp).trans (performAccess_rdm hr), readBuffer_length _ b off n,
    fun k hk => ?bytes⟩, fun hr => (step_pending s _ rest hp).trans (performAccess_rdm_outside hr)⟩
  case bytes =>
    have hbyte : (readBuffer (s.setPending rest) b off n)[k]? =
        some (((bufferOf s b).read (off + k)).getD (Config.freeByte s.draws (off + k))) := by
      rw [readBuffer_getElem? hk]
      cases b <;> rfl
    rw [← bufferOf_eq_ite]
    exact ⟨fun v hv => by rw [hbyte, hv, Option.getD_some], fun hv => by rw [hbyte, hv, Option.getD_none]⟩

/-! SUPPORT. One block of an ECB command against the block command on the same bytes. -/

/-- The block commands by their mode bit. -/
theorem exec_block_of_mode (e : Bool) (s : State) : exec (if e then .encblk else .decblk) s = cryptBlock e s := by
  cases e <;> rfl

/-- The ECB commands by their mode bit. -/
theorem exec_ecb_of_mode (e : Bool) (s : State) : exec (if e then .ecbenc else .ecbdec) s = ecbCommand e s := by
  cases e <;> rfl

/-- An ECB command that ended in `Success` was valid, had its operands and stored its blocks. -/
theorem ecbCommand_success {e : Bool} {s t : State} (h : ecbCommand e s = .next t) (hok : t.status.getLsbD 0 = false) :
    ecbValid s = true ∧ s.key.written = true ∧
      ∃ data, memRead s.ibuf 0 s.len.toNat = some data ∧ t = ecbDone e s data := by
  rcases (ecbCommand_next e s t).1 h with ⟨_, rfl⟩ | hdone
  · exact (Bool.false_ne_true (hok.symm.trans (withErr_err true s.status))).elim
  · exact hdone

/-- Eight bytes are their own only block. -/
theorem blockBytes_zero_of_length {data : List Byte} (h : data.length = 8) : blockBytes data 0 = data :=
  List.take_of_length_le h.le

/-- Each block of the data stands, transformed, at its own offset of `OBUF`. -/
theorem ecbDone_memRead_block (e : Bool) (s : State) (data : List Byte) {b : Nat} (hb : b < s.len.toNat / 8) :
    memRead (ecbDone e s data).obuf (8 * b) 8 = some (cryptBytes (ks s.key.val) e (blockBytes data b)) := by
  rw [memRead_eq_some]
  refine ⟨cryptBytes_length _ e _, fun k hk => ?_⟩
  have hk8 : k < 8 := cryptBytes_length _ e _ ▸ hk
  have hdiv : (8 * b + k) / 8 = b := by omega
  have hmod : (8 * b + k) % 8 = k := by omega
  rw [ecbDone_obuf_read, if_pos (by omega), hdiv, hmod, List.getElem?_eq_getElem hk]

/-- Settles O44: both ways are `crypt` of the same block under the schedule the ECB command left. -/
theorem oneBlockEitherWay : Obligations.OneBlockEitherWay := by
  intro s t e bs hlen hex hok hbs
  obtain ⟨_, _, data, hdata, rfl⟩ := ecbCommand_success ((exec_ecb_of_mode e s).symm.trans hex) hok
  have hlen8 : s.len.toNat = 8 := congrArg BitVec.toNat hlen
  obtain rfl : data = bs := Option.some.inj (hdata.symm.trans (hlen8 ▸ hbs))
  have hwhole : blockBytes data 0 = data := blockBytes_zero_of_length ((memRead_eq_some _ _ _ _).1 hbs).1
  obtain ⟨_, hrkv, _⟩ := withErr_withRkv_fields false s.status
  refine ⟨_, (exec_block_of_mode e _).trans ((cryptBlock_next e _ _).2 ⟨hrkv, rfl, rfl⟩), ?_⟩
  calc memRead (ecbDone e s data).obuf 0 8
    _ = some (cryptBytes (ks s.key.val) e (blockBytes data 0)) := ecbDone_memRead_block e s data (b := 0) (by omega)
    _ = some (bitsToBytes 8 (crypt (bytesToBits 8 data) (ks s.key.val) e)) := by rw [hwhole, cryptBytes]

end Sys2Proof.Machine

/-! SUPPORT. Family 30_encoding. The legal words: the three checks on the fields of a word, the opcode map, and what the
decoder answers. -/

namespace Sys2Proof.Machine

/-- The `zero` check fails exactly on a field that is not `0000`. -/
theorem zeroOk_eq_false_iff (f : Cmd8) : f.zeroOk = false ↔ f.zero ≠ 0 := beq_eq_false_iff_ne

/-- The selector check fails exactly on the four unassigned selectors (30_encoding.md rule R71). -/
theorem opOk_eq_false_iff (f : Cmd8) : f.opOk = false ↔ f.op ∈ [0#3, 5#3, 6#3, 7#3] := by
  have hop : ∀ op : BitVec 3, (op == 1 || op == 2 || op == 3 || op == 4) = false ↔ op ∈ [0#3, 5#3, 6#3, 7#3] := by decide
  exact hop f.op

/-- The mode check fails exactly on the mode 1 of a unit that has no mode (30_encoding.md rule R71). -/
theorem modeOk_eq_false_iff (f : Cmd8) : f.modeOk = false ↔ f.m = 1 ∧ f.op ∈ [1#3, 2#3] := by
  have hmode : ∀ (op : BitVec 3) (m : BitVec 1), (m == 0 || !(op == 1 || op == 2)) = false ↔ m = 1 ∧ op ∈ [1#3, 2#3] := by
    decide
  exact hmode f.op f.m

/-- The fields that select no operation, case by case (30_encoding.md rule R74). -/
theorem wellFormed_eq_false_iff (f : Cmd8) : f.wellFormed = false ↔
    (f.zero ≠ 0 ∨ f.op ∈ [0#3, 5#3, 6#3, 7#3] ∨ (f.m = 1 ∧ f.op ∈ [1#3, 2#3])) := by
  rw [Cmd8.wellFormed, Bool.and_eq_false_iff, Bool.and_eq_false_iff, zeroOk_eq_false_iff, opOk_eq_false_iff,
    modeOk_eq_false_iff, or_assoc]

/-- The fields the format gives a command pass the checks. -/
theorem wellFormed_fields (i : Instr) : i.fields.wellFormed = true := by
  cases i with
  | ksched => exact Laws.Fields.ksched.2
  | roundf => exact Laws.Fields.roundf.2
  | decblk => exact Laws.Fields.decblk.2
  | encblk => exact Laws.Fields.encblk.2
  | ecbdec => exact Laws.Fields.ecbdec.2
  | ecbenc => exact Laws.Fields.ecbenc.2

/-- Fields pass the checks exactly when they are those of a command. -/
theorem wellFormed_iff_fields (f : Cmd8) : f.wellFormed = true ↔ ∃ i : Instr, i.fields = f := by
  constructor
  · obtain ⟨zero, op, m⟩ := f
    intro h
    simp only [Cmd8.wellFormed, Cmd8.zeroOk, Cmd8.opOk, Cmd8.modeOk, Bool.and_eq_true, Bool.or_eq_true, beq_iff_eq,
      or_assoc] at h
    obtain ⟨⟨rfl, hop⟩, hmode⟩ := h
    rcases BitVec.eq_zero_or_eq_one m with rfl | rfl <;> rcases hop with rfl | rfl | rfl | rfl
    · exact ⟨.ksched, rfl⟩
    · exact ⟨.roundf, rfl⟩
    · exact ⟨.decblk, rfl⟩
    · exact ⟨.ecbdec, rfl⟩
    · exact absurd hmode (by decide)
    · exact absurd hmode (by decide)
    · exact ⟨.encblk, rfl⟩
    · exact ⟨.ecbenc, rfl⟩
  · rintro ⟨i, rfl⟩
    exact wellFormed_fields i

/-- A word decodes to some command exactly when its fields pass the checks. -/
theorem exists_decode_iff_wellFormed (w : BitVec 8) : (∃ i, decode w = .ok i) ↔ (fieldsOf w).wellFormed = true := by
  rw [wellFormed_iff_fields]
  constructor
  · rintro ⟨i, hi⟩
    exact ⟨i, (fieldsOf_of_decode hi).symm⟩
  · rintro ⟨i, hi⟩
    have hw : w = encode i := fieldsOf_injective (hi.symm.trans (fieldsOf_encode i).symm)
    exact ⟨i, hw ▸ decode_encode i⟩

/-- The legal words are the words of the commands (30_encoding.md rule R72). -/
theorem mem_legalWords_iff_encode (w : BitVec 8) : w ∈ legalWords ↔ ∃ i, w = encode i := by
  constructor
  · intro h
    simp only [legalWords, List.mem_cons, List.not_mem_nil, or_false] at h
    rcases h with rfl | rfl | rfl | rfl | rfl | rfl
    exacts [⟨.ksched, rfl⟩, ⟨.roundf, rfl⟩, ⟨.decblk, rfl⟩, ⟨.encblk, rfl⟩, ⟨.ecbdec, rfl⟩, ⟨.ecbenc, rfl⟩]
  · rintro ⟨i, rfl⟩
    cases i <;> decide

/-- The legal words are those that decode to some command. -/
theorem mem_legalWords_iff_decode (w : BitVec 8) : w ∈ legalWords ↔ ∃ i, decode w = .ok i := by
  rw [mem_legalWords_iff_encode]
  exact exists_congr fun i => ⟨fun hw => hw ▸ decode_encode i, eq_encode_of_decode⟩

/-- A word that the decoder rejects it rejects as reserved, by its own name (30_encoding.md rule R79). -/
theorem eq_reserved_of_decode {w : BitVec 8} {e : DecodeError} (h : decode w = .error e) : e = .reserved w := by
  simp only [decode] at h
  split at h
  · split at h <;> cases h
    rfl
  · cases h
    rfl

/-- A word that is not legal is rejected by name. -/
theorem decode_of_not_legal {w : BitVec 8} (h : w ∉ legalWords) : decode w = .error (.reserved w) := by
  cases hd : decode w with
  | ok i => exact absurd ((mem_legalWords_iff_decode w).2 ⟨i, hd⟩) h
  | error e => rw [eq_reserved_of_decode hd]

/-- Issuing a word that is not legal takes the exception (30_encoding.md rule R74). -/
theorem issue_of_not_legal {w : BitVec 8} (s : State) (h : w ∉ legalWords) : issue w s = .next s.raiseInvalidInput := by
  rw [issue, decode_of_not_legal h]

/-- Settles O1: the six words are those of the commands, and every other word is rejected by name. -/
theorem opcodeMap : Obligations.OpcodeMap :=
  ⟨decode_encode .ksched, decode_encode .roundf, decode_encode .decblk, decode_encode .encblk, decode_encode .ecbdec,
    decode_encode .ecbenc, fun _ => decode_of_not_legal⟩

/-- Settles O2: the decoder inverts the encoder, and accepts the words whose fields are those of a command. -/
theorem decodeEncodeAgree : Obligations.DecodeEncodeAgree :=
  ⟨fun i _ => decode_encode i, fun _ _ h => ⟨eq_encode_of_decode h, fieldsOf_of_decode h⟩, exists_decode_iff_wellFormed⟩

/-- Settles O3: a reserved word takes the exception, and the reserved words are those whose fields fail a check. -/
theorem reservedWordRaisesInvalidInput : Obligations.ReservedWordRaisesInvalidInput := by
  refine ⟨fun w s hw => ⟨_, issue_of_not_legal s hw, withErr_fields true s.status⟩, fun w => ?_⟩
  rw [mem_legalWords_iff_decode, exists_decode_iff_wellFormed, Bool.not_eq_true, wellFormed_eq_false_iff]

/-! SUPPORT. No operation refuses: each operand read refuses only if what it goes on with does. -/

/-- The outcome is a next state or a fault. -/
def NotRefused (o : Host.Outcome State Fault Refusal) : Prop := ∀ r, o ≠ .refused r

namespace NotRefused

theorem next (s : State) : NotRefused (.next s) := nofun

theorem fault (f : Fault) : NotRefused (.fault f) := nofun

/-- Reading an operand register refuses nothing of itself. -/
theorem needOperand {w : Nat} (r : Marked w) {go : BitVec w → Host.Outcome State Fault Refusal}
    (hgo : ∀ v, NotRefused (go v)) : NotRefused (needOperand r go) := by
  unfold Machine.needOperand
  split
  · exact hgo _
  · exact fault _

/-- Reading the round keys refuses nothing of itself. -/
theorem needSchedule (s : State) {go : Schedule → Host.Outcome State Fault Refusal} (hgo : ∀ K, NotRefused (go K)) :
    NotRefused (needSchedule s go) := by
  unfold Machine.needSchedule
  split
  · exact hgo _
  · exact fault _

/-- Reading the data refuses nothing of itself. -/
theorem needData (m : Memory) (n : Nat) {go : List Byte → Host.Outcome State Fault Refusal}
    (hgo : ∀ data, NotRefused (go data)) : NotRefused (needData m n go) := by
  unfold Machine.needData
  split
  · exact hgo _
  · exact fault _

theorem cryptBlock (e : Bool) (s : State) : NotRefused (cryptBlock e s) := by
  unfold Machine.cryptBlock
  exact needSchedule s fun _ => needOperand s.din fun _ => next _

theorem ecbCommand (e : Bool) (s : State) : NotRefused (ecbCommand e s) := by
  unfold Machine.ecbCommand
  split
  · exact needOperand s.key fun _ => needData s.ibuf _ fun _ => next _
  · exact next _

theorem execKsched (s : State) : NotRefused (execKsched s) := by
  unfold Machine.execKsched
  exact needOperand s.key fun _ => next _

theorem execRoundf (s : State) : NotRefused (execRoundf s) := by
  unfold Machine.execRoundf
  exact needOperand s.rin fun _ => needOperand s.skin fun _ => next _

/-- Every command has its meaning (30_encoding.md rule R72). -/
theorem exec (i : Instr) (s : State) : NotRefused (exec i s) := by
  cases i with
  | ksched => exact execKsched s
  | roundf => exact execRoundf s
  | decblk => exact cryptBlock false s
  | encblk => exact cryptBlock true s
  | ecbdec => exact ecbCommand false s
  | ecbenc => exact ecbCommand true s

/-- Every word has its meaning, the reserved ones too (30_encoding.md rules R74 and R79). -/
theorem issue (w : BitVec 8) (s : State) : NotRefused (issue w s) := by
  unfold Machine.issue
  split
  · exact exec _ s
  · exact next _

/-- A write of any register has its meaning (10_state.md rule R36). -/
theorem hostWrite (r : RegName) (v : BitVec r.width) (s : State) : NotRefused (hostWrite r v s) := by
  cases r with
  | cmd => exact issue v s
  | key | din | rin | skin | len | fctl | status | dout | fout | reserved | rk => exact next _

theorem performAccess (a : Access) (s : State) : NotRefused (performAccess a s) := by
  cases a with
  | wr r v => exact hostWrite r v s
  | rd r => exact next _
  | wrm b off bs =>
    by_cases hr : InRange off bs.length
    · exact performAccess_wrm hr ▸ next _
    · exact performAccess_wrm_outside hr ▸ fault _
  | rdm b off n =>
    by_cases hr : InRange off n
    · exact performAccess_rdm hr ▸ next _
    · exact performAccess_rdm_outside hr ▸ fault _
  | reset => exact next _

theorem step (s : State) : NotRefused (step s) := by
  unfold Machine.step
  split
  · exact next s
  · exact performAccess _ _

end NotRefused

/-- Settles O50: neither a step nor a command is refused. -/
theorem nothingIsRefused : Obligations.NothingIsRefused :=
  fun s r => ⟨NotRefused.step s r, fun i => NotRefused.exec i s r⟩

/-! SUPPORT. The frames of the commands. -/

section frames
variable {e : Bool} {s t : State}

/-- A block command leaves `FOUT`, the round keys, all of `STATUS` but `ERR`, and both buffers. -/
theorem cryptBlock_frame (h : cryptBlock e s = .next t) :
    t.fout = s.fout ∧ t.rk = s.rk ∧ (∀ i, 1 ≤ i → t.status.getLsbD i = s.status.getLsbD i) ∧
      ∀ a, t.ibuf.read a = s.ibuf.read a ∧ t.obuf.read a = s.obuf.read a := by
  obtain ⟨_, _, rfl⟩ := (cryptBlock_next e s t).1 h
  exact ⟨rfl, rfl, withErr_other false s.status, fun _ => ⟨rfl, rfl⟩⟩

/-- The block loop ends at or below `LEN`, so a successful ECB command leaves `OBUF` from there up. -/
theorem ecbDone_obuf_read_above (e : Bool) (s : State) (data : List Byte) {a : Nat} (ha : s.len.toNat ≤ a) :
    (ecbDone e s data).obuf.read a = s.obuf.read a := by
  rw [ecbDone_obuf_read, if_neg (by omega)]

/-- An ECB command leaves `DOUT`, `FOUT`, the reserved bits of `STATUS`, `IBUF`, and `OBUF` from `LEN` up; with `ERR` 1 it
took the exception, which leaves `RK`, `RKV` and all of `OBUF` too. -/
theorem ecbCommand_frame (h : ecbCommand e s = .next t) :
    t.dout = s.dout ∧ t.fout = s.fout ∧ (∀ i, 2 ≤ i → t.status.getLsbD i = s.status.getLsbD i) ∧
      (∀ a, t.ibuf.read a = s.ibuf.read a) ∧ (∀ a, s.len.toNat ≤ a → t.obuf.read a = s.obuf.read a) ∧
      (t.status.getLsbD 0 = true → t.rk = s.rk ∧ t.status.getLsbD 1 = s.status.getLsbD 1 ∧
        ∀ a, t.obuf.read a = s.obuf.read a) := by
  rcases (ecbCommand_next e s t).1 h with ⟨_, rfl⟩ | ⟨_, _, data, _, rfl⟩
  · obtain ⟨_, hrkv, hreserved⟩ := withErr_fields true s.status
    exact ⟨rfl, rfl, hreserved, fun _ => rfl, fun _ _ => rfl, fun _ => ⟨rfl, hrkv, fun _ => rfl⟩⟩
  · obtain ⟨herr, _, hreserved⟩ := withErr_withRkv_fields false s.status
    exact ⟨rfl, rfl, hreserved, fun _ => rfl, fun _ => ecbDone_obuf_read_above e s data,
      fun h1 => (Bool.false_ne_true (herr.symm.trans h1)).elim⟩

end frames

/-- Settles O53: each of the four writes its one result and its bits of `STATUS`. -/
theorem registerCommandFrames : Obligations.RegisterCommandFrames := by
  refine ⟨fun s t h => ?ksched, fun s t h => ?roundf, fun s t i hi h => ?block⟩
  case ksched =>
    obtain ⟨_, rfl⟩ := (execKsched_next s t).1 h
    obtain ⟨_, _, hreserved⟩ := withErr_withRkv_fields false s.status
    exact ⟨rfl, rfl, hreserved, fun _ => ⟨rfl, rfl⟩⟩
  case roundf =>
    obtain ⟨_, _, rfl⟩ := (execRoundf_next s t).1 h
    exact ⟨rfl, rfl, withErr_other false s.status, fun _ => ⟨rfl, rfl⟩⟩
  case block =>
    rcases hi with rfl | rfl
    · exact cryptBlock_frame (e := true) h
    · exact cryptBlock_frame (e := false) h

/-- Settles O54: both modes of the ECB command have the one frame. -/
theorem ecbCommandFrame : Obligations.EcbCommandFrame := by
  intro s t i hi h
  rcases hi with rfl | rfl
  · exact ecbCommand_frame (e := true) h
  · exact ecbCommand_frame (e := false) h

/-! SUPPORT. What a command answers from another state that holds the same operands. -/

section sameOperands
variable {e : Bool} {s s' t : State}

/-- Every command that succeeds leaves the same `ERR`. -/
theorem succeed_err_eq (s s' : State) : s'.succeed.status.getLsbD 0 = s.succeed.status.getLsbD 0 :=
  (withErr_err false s'.status).trans (withErr_err false s.status).symm

/-- The validity of an ECB command is read from `LEN` and `FCTL`. -/
theorem ecbValid_congr (hlen : s.len = s'.len) (hfctl : s.fctl = s'.fctl) : ecbValid s = ecbValid s' := by
  rw [Bool.eq_iff_iff, ecbValid_iff_checks, ecbValid_iff_checks]
  simp only [fctlDpres, fctlKlen, hfctl, hlen]

/-- What a successful ECB command stores at an offset of its blocks comes from `KEY`, `LEN` and the data. -/
theorem ecbDone_obuf_read_congr (e : Bool) (data : List Byte) (hkey : s.key = s'.key) (hlen : s.len = s'.len)
    (hvalid : ecbValid s = true) {a : Nat} (ha : a < s.len.toNat) :
    (ecbDone e s' data).obuf.read a = (ecbDone e s data).obuf.read a := by
  obtain ⟨_, _, _, haligned, _⟩ := (ecbValid_iff_checks s).1 hvalid
  have hblock : a < 8 * (s.len.toNat / 8) := by omega
  rw [ecbDone_obuf_read, ecbDone_obuf_read, ← hkey, ← hlen, if_pos hblock, if_pos hblock]

/-- A block command with the same `DIN`, round keys and `RKV` ends alike, with the same `DOUT`. -/
theorem cryptBlock_sameOperands (hops : SameOperands .encblk s s') (h : cryptBlock e s = .next t) :
    ∃ t', cryptBlock e s' = .next t' ∧ t'.status.getLsbD 0 = t.status.getLsbD 0 ∧ t'.dout = t.dout := by
  obtain ⟨hdin, hrk, hrkv⟩ := hops
  obtain ⟨hv, hw, rfl⟩ := (cryptBlock_next e s t).1 h
  refine ⟨_, (cryptBlock_next e s' _).2 ⟨hrkv.symm.trans hv, hdin ▸ hw, rfl⟩,
    succeed_err_eq _ _, ?_⟩
  simp only [State.succeed_dout, State.setDout_dout, hdin, hrk]

/-- An ECB command with the same `KEY`, `LEN`, `FCTL` and data ends alike, and where it succeeds with the same round keys
and the same bytes below `LEN`. -/
theorem ecbCommand_sameOperands (hops : SameOperands .ecbenc s s') (h : ecbCommand e s = .next t) :
    ∃ t', ecbCommand e s' = .next t' ∧ t'.status.getLsbD 0 = t.status.getLsbD 0 ∧
      (t.status.getLsbD 0 = false → t'.rk = t.rk ∧ ∀ a, a < s.len.toNat → t'.obuf.read a = t.obuf.read a) := by
  obtain ⟨hkey, hlen, hfctl, hibuf⟩ := hops
  have hvalid' : ecbValid s = ecbValid s' := ecbValid_congr hlen hfctl
  rcases (ecbCommand_next e s t).1 h with ⟨hinvalid, rfl⟩ | ⟨hvalid, hw, data, hdata, rfl⟩
  · exact ⟨_, ecbCommand_invalid e s' (hvalid' ▸ hinvalid), (withErr_err true _).trans (withErr_err true _).symm,
      fun hok => (Bool.false_ne_true (hok.symm.trans (withErr_err true s.status))).elim⟩
  · have hdata' : memRead s'.ibuf 0 s'.len.toNat = some data := by
      rw [← hlen, ← hdata]
      exact memRead_congr _ _ 0 _ fun x _ hx => (hibuf x (by omega)).symm
    refine ⟨_, (ecbCommand_next e s' _).2 (.inr ⟨hvalid' ▸ hvalid, hkey ▸ hw, data, hdata', rfl⟩),
      succeed_err_eq _ _, fun _ => ⟨?_, fun a ha => ?_⟩⟩
    · exact congrArg (fun key : Marked 64 => ks key.val) hkey.symm
    · exact ecbDone_obuf_read_congr e data hkey hlen hvalid ha

end sameOperands

/-- Settles O57: each command answers from its operands alone. -/
theorem resultsDependOnOperandsOnly : Obligations.ResultsDependOnOperandsOnly := by
  intro i s s' t hops h
  cases i with
  | ksched =>
    obtain ⟨hw, rfl⟩ := (execKsched_next s t).1 h
    have hkey : s.key = s'.key := hops
    exact ⟨_, (execKsched_next s' _).2 ⟨hkey ▸ hw, rfl⟩, succeed_err_eq _ _,
      by simp [hkey]⟩
  | roundf =>
    obtain ⟨hwr, hws, rfl⟩ := (execRoundf_next s t).1 h
    obtain ⟨hrin, hskin⟩ := hops
    exact ⟨_, (execRoundf_next s' _).2 ⟨hrin ▸ hwr, hskin ▸ hws, rfl⟩,
      succeed_err_eq _ _, by simp [hrin, hskin]⟩
  | decblk =>
    obtain ⟨t', ht', herr, hdout⟩ := cryptBlock_sameOperands (e := false) hops h
    exact ⟨t', ht', herr, by simp [hdout]⟩
  | encblk =>
    obtain ⟨t', ht', herr, hdout⟩ := cryptBlock_sameOperands (e := true) hops h
    exact ⟨t', ht', herr, by simp [hdout]⟩
  | ecbdec =>
    obtain ⟨t', ht', herr, hout⟩ := ecbCommand_sameOperands (e := false) hops h
    exact ⟨t', ht', herr, by simpa using hout⟩
  | ecbenc =>
    obtain ⟨t', ht', herr, hout⟩ := ecbCommand_sameOperands (e := true) hops h
    exact ⟨t', ht', herr, by simpa using hout⟩

end Sys2Proof.Machine

/-! SUPPORT. Family 40_bitvector, the layer its proofs stand on: positions of a bit sequence, and the value of a list of
digits written one after the other, the first digit the most significant. -/

namespace Sys2Proof.Machine

section positions
variable {N : Nat}

/-- The bit at position `p` in the register view (00_scope.md rule R10). -/
theorem bitAt_eq_getLsbD (x : BitVec N) {p : Nat} (h1 : 1 ≤ p) (hN : p ≤ N) : bitAt x p = x.getLsbD (N - p) := by
  have hp : N - 1 - (p - 1) = N - p := by omega
  rw [bitAt, BitVec.getMsbD_eq_getLsbD, decide_eq_true (by omega : p - 1 < N), Bool.true_and, hp]

/-- Sequences with the same bit at every position are the same sequence. -/
theorem eq_of_bitAt_eq {x y : BitVec N} (h : ∀ p, 1 ≤ p → p ≤ N → bitAt x p = bitAt y p) : x = y :=
  BitVec.eq_of_getMsbD_eq fun i hi => h (i + 1) (by omega) (by omega)

/-- Every position of the complement holds the complemented bit (40_bitvector.md rule R94). -/
theorem bitAt_not (x : BitVec N) {p : Nat} (h1 : 1 ≤ p) (hN : p ≤ N) : bitAt (~~~x) p = !bitAt x p := by
  rw [bitAt, BitVec.getMsbD_not, decide_eq_true (by omega : p - 1 < N), Bool.true_and, bitAt]

/-- The first half is positions 1 to H (40_bitvector.md rule R95). -/
theorem bitAt_firstHalf {H : Nat} (s : BitVec (H + H)) {p : Nat} (h1 : 1 ≤ p) (hH : p ≤ H) :
    bitAt (firstHalf H s) p = bitAt s p := by
  have hp : H + (H - p) = H + H - p := by omega
  rw [bitAt_eq_getLsbD _ h1 hH, bitAt_eq_getLsbD s h1 (by omega), firstHalf, BitVec.getLsbD_extractLsb',
    decide_eq_true (by omega : H - p < H), Bool.true_and, hp]

/-- The second half is positions H+1 to 2H (40_bitvector.md rule R95). -/
theorem bitAt_secondHalf {H : Nat} (s : BitVec (H + H)) {p : Nat} (h1 : 1 ≤ p) (hH : p ≤ H) :
    bitAt (secondHalf H s) p = bitAt s (H + p) := by
  have hp : 0 + (H - p) = H + H - (H + p) := by omega
  rw [bitAt_eq_getLsbD _ h1 hH, bitAt_eq_getLsbD s (by omega) (by omega), secondHalf, BitVec.getLsbD_extractLsb',
    decide_eq_true (by omega : H - p < H), Bool.true_and, hp]

end positions

/-- The number whose digits of `w` bits are `ds`, the first digit the most significant. -/
def bigEndian {w : Nat} (ds : List (BitVec w)) : Nat := ds.foldl (fun acc d => 2 ^ w * acc + d.toNat) 0

section bigEndian
variable {w : Nat}

/-- A digit put last is the new least significant one. -/
theorem bigEndian_concat (ds : List (BitVec w)) (d : BitVec w) :
    bigEndian (ds ++ [d]) = 2 ^ w * bigEndian ds + d.toNat := by
  rw [bigEndian, List.foldl_concat, bigEndian]

/-- A digit put first weighs as much as the digits after it can count. -/
theorem bigEndian_cons (d : BitVec w) (ds : List (BitVec w)) :
    bigEndian (d :: ds) = 2 ^ (w * ds.length) * d.toNat + bigEndian ds := by
  induction ds using List.reverseRecOn with
  | nil => simp [bigEndian]
  | append_singleton ds e ih =>
    rw [← List.cons_append, bigEndian_concat, ih, bigEndian_concat, List.length_append, List.length_singleton]
    ring

/-- `n` digits count to below the `n`-th power of the base. -/
theorem bigEndian_lt (ds : List (BitVec w)) : bigEndian ds < 2 ^ (w * ds.length) := by
  induction ds with
  | nil => exact Nat.one_pos
  | cons d ds ih =>
    have hd : d.toNat + 1 ≤ 2 ^ w := d.isLt
    calc bigEndian (d :: ds) = 2 ^ (w * ds.length) * d.toNat + bigEndian ds := bigEndian_cons d ds
      _ < 2 ^ (w * ds.length) * (d.toNat + 1) := by rw [Nat.mul_succ]; omega
      _ ≤ 2 ^ (w * ds.length) * 2 ^ w := Nat.mul_le_mul_left _ hd
      _ = 2 ^ (w * (d :: ds).length) := by rw [← pow_add, List.length_cons, Nat.mul_succ]

/-- Bit `k` of digit `j`, counted from the most significant digit, in the number. -/
theorem testBit_bigEndian (ds : List (BitVec w)) {j k : Nat} (hj : j < ds.length) (hk : k < w) :
    (bigEndian ds).testBit (w * (ds.length - 1 - j) + k) = ds[j].getLsbD k := by
  induction ds generalizing j with
  | nil => cases hj
  | cons d ds ih =>
    rw [bigEndian_cons, Nat.testBit_two_pow_mul_add _ (bigEndian_lt ds)]
    cases j with
    | zero => simp [BitVec.testBit_toNat]
    | succ j =>
      have hj' : j < ds.length := by simpa using hj
      have hindex : (d :: ds).length - 1 - (j + 1) = ds.length - 1 - j := by simp; omega
      have hlow : w * (ds.length - 1 - j) + k < w * ds.length :=
        calc w * (ds.length - 1 - j) + k < w * (ds.length - 1 - j + 1) := by rw [Nat.mul_succ]; omega
          _ ≤ w * ds.length := Nat.mul_le_mul_left w (by omega)
      rw [hindex, if_pos hlow, ih hj', List.getElem_cons_succ]

/-- The number is the sum of its digits, each with its weight. -/
theorem bigEndian_eq_sum (ds : List (BitVec w)) :
    bigEndian ds = ((List.range ds.length).map fun j => (ds.getD j 0).toNat * 2 ^ (w * (ds.length - 1 - j))).sum := by
  induction ds with
  | nil => rfl
  | cons d ds ih =>
    rw [bigEndian_cons, ih, List.length_cons, List.range_succ_eq_map, List.map_cons, List.sum_cons, List.map_map]
    have hweight : ∀ j, ds.length - 1 - j = ds.length - (j + 1) := fun j => by omega
    simp [Function.comp_def, hweight, Nat.mul_comm]

end bigEndian

/-! SUPPORT. Bytes and bits. -/

section bytes
variable {N : Nat}

/-- `bytesToBits` writes the bytes one after the other, byte 0 first (40_bitvector.md rule R90). -/
theorem bytesToBits_eq_bigEndian (N : Nat) (B : List Byte) : bytesToBits N B = BitVec.ofNat (8 * N) (bigEndian B) := rfl

/-- Position `8j+k+1` is bit `7-k` of the byte at `8(N-1-j)` of the register view (40_bitvector.md rule R90). -/
theorem bitAt_byte (x : BitVec (8 * N)) {j k : Nat} (hj : j < N) (hk : k < 8) :
    bitAt x (8 * j + k + 1) = x.getLsbD (8 * (N - 1 - j) + (7 - k)) := by
  rw [bitAt_eq_getLsbD x (by omega) (by omega)]
  congr 1
  omega

/-- Byte `j` of the list is the byte at `8(N-1-j)` of the register view (40_bitvector.md rule R91). -/
theorem getLsbD_bytesToBits {B : List Byte} (hB : B.length = N) {j k : Nat} (hj : j < N) (hk : k < 8) :
    (bytesToBits N B).getLsbD (8 * (N - 1 - j) + k) = (B.getD j 0).getLsbD k := by
  subst hB
  rw [bytesToBits_eq_bigEndian, BitVec.getLsbD_ofNat, testBit_bigEndian B hj hk, decide_eq_true (by omega),
    Bool.true_and, List.getD_eq_getElem B 0 hj]

/-- Byte `j` of `bitsToBytes` is the byte at `8(N-1-j)` of the register view (40_bitvector.md rule R91). -/
theorem getLsbD_bitsToBytes (x : BitVec (8 * N)) {j k : Nat} (hj : j < N) (hk : k < 8) :
    ((bitsToBytes N x).getD j 0).getLsbD k = x.getLsbD (8 * (N - 1 - j) + k) := by
  have hbyte : (bitsToBytes N x).getD j 0 = x.extractLsb' (8 * (N - 1 - j)) 8 := by
    rw [List.getD_eq_getElem _ 0 (by simpa using hj)]
    simp [bitsToBytes]
  rw [hbyte, BitVec.getLsbD_extractLsb', decide_eq_true hk, Bool.true_and]

/-- Writing out the bytes of a sequence gives the sequence back (40_bitvector.md rule R91). -/
@[simp] theorem bytesToBits_bitsToBytes (x : BitVec (8 * N)) : bytesToBits N (bitsToBytes N x) = x := by
  refine BitVec.eq_of_getLsbD_eq fun i hi => ?_
  have hsplit : i = 8 * (N - 1 - (N - 1 - i / 8)) + i % 8 := by omega
  have hj : N - 1 - i / 8 < N := by omega
  have hk : i % 8 < 8 := Nat.mod_lt i (by decide)
  rw [hsplit, getLsbD_bytesToBits (bitsToBytes_length N x) hj hk, getLsbD_bitsToBytes x hj hk]

/-- Reading the bytes off what a list of bytes was written to gives the list back (40_bitvector.md rule R91). -/
@[simp] theorem bitsToBytes_bytesToBits (B : List Byte) : bitsToBytes B.length (bytesToBits B.length B) = B := by
  refine List.ext_getElem (bitsToBytes_length _ _) fun j hj hjB => BitVec.eq_of_getLsbD_eq fun k hk => ?_
  rw [← List.getD_eq_getElem _ 0 hj, ← List.getD_eq_getElem _ 0 hjB, getLsbD_bitsToBytes _ hjB hk,
    getLsbD_bytesToBits rfl hjB hk]

end bytes

/-- Settles O13: the bytes are the digits of the register view in base 256. -/
theorem bytesToBitsPositions : Obligations.BytesToBitsPositions := by
  refine fun B => ⟨fun j k hj hk => ?bit, ?sum⟩
  case bit => rw [bitAt_byte _ hj hk, getLsbD_bytesToBits rfl hj (by omega)]
  case sum =>
    rw [bytesToBits_eq_bigEndian, BitVec.toNat_ofNat, Nat.mod_eq_of_lt (bigEndian_lt B), bigEndian_eq_sum]

/-- Settles O14: both functions put byte `j` at the same place of the register view. -/
theorem bytesBitsRoundTrip : Obligations.BytesBitsRoundTrip :=
  ⟨bitsToBytes_bytesToBits, fun N x => ⟨bytesToBits_bitsToBytes x, bitsToBytes_length N x⟩,
    fun N x j k hj hk => by rw [getLsbD_bitsToBytes x hj (by omega), bitAt_byte x hj hk]⟩

/-! SUPPORT. Tables and the rotation, by positions. -/

section tables
variable {W N : Nat}

/-- A table writes the bits its entries name, one after the other (40_bitvector.md rule R92). -/
theorem applyTable_eq_bigEndian (x : BitVec W) (T : PermTable W N) :
    applyTable x T = BitVec.ofNat N (bigEndian (T.entries.map fun p => BitVec.ofBool (bitAt x p))) := by
  rw [applyTable, bigEndian, List.foldl_map]
  simp only [BitVec.toNat_ofBool, pow_one]

/-- Output position `i` is the input position the `i`-th entry names (40_bitvector.md rule R92). -/
theorem bitAt_applyTable (x : BitVec W) (T : PermTable W N) {i : Nat} (h1 : 1 ≤ i) (hN : i ≤ N) :
    bitAt (applyTable x T) i = bitAt x (T.entries.getD (i - 1) 0) := by
  have hi : i - 1 < T.entries.length := by rw [T.length_eq]; omega
  have hplace : 1 * (N - 1 - (i - 1)) + 0 = N - i := by omega
  have hbit := testBit_bigEndian (T.entries.map fun p => BitVec.ofBool (bitAt x p)) (j := i - 1) (k := 0)
    (by rwa [List.length_map]) Nat.one_pos
  simp only [List.length_map, T.length_eq, hplace, List.getElem_map, BitVec.getLsbD_ofBool, decide_true,
    Bool.true_and] at hbit
  rw [bitAt_eq_getLsbD _ h1 hN, applyTable_eq_bigEndian, BitVec.getLsbD_ofNat, decide_eq_true (by omega), Bool.true_and,
    hbit, List.getD_eq_getElem _ 0 hi]

/-- The position an entry of a table names exists (40_bitvector.md rule R93). -/
theorem entry_inRange (T : PermTable W N) {i : Nat} (h1 : 1 ≤ i) (hN : i ≤ N) :
    1 ≤ T.entries.getD (i - 1) 0 ∧ T.entries.getD (i - 1) 0 ≤ W := by
  have hi : i - 1 < T.entries.length := by rw [T.length_eq]; omega
  rw [List.getD_eq_getElem _ 0 hi]
  exact T.inRange _ (List.getElem_mem hi)

end tables

/-- Settles O15: the entries are the digits of the output in base 2. -/
theorem applyTablePositions : Obligations.ApplyTablePositions := fun _ _ T x _ h1 hN => bitAt_applyTable x T h1 hN

section rotation
variable (x : KeyHalf) {n p : Nat}

/-- Position `p` after a rotation is the position `n` further on, round the 28 (40_bitvector.md rule R96). -/
theorem bitAt_rol28 (n : Nat) (h1 : 1 ≤ p) (h28 : p ≤ 28) : bitAt (rol28 x n) p = bitAt x ((p - 1 + n) % 28 + 1) := by
  rw [bitAt, rol28, BitVec.getMsbD_rotateLeft, decide_eq_true (by omega : p - 1 < 28), Bool.true_and, bitAt,
    Nat.add_sub_cancel, Nat.add_comm n]

/-- A half whose bits are all alike is fixed by every rotation (40_bitvector.md rule R96). -/
theorem rol28_eq_self_of_constant {c : Bool} (n : Nat) (h : ∀ p, 1 ≤ p → p ≤ 28 → bitAt x p = c) : rol28 x n = x := by
  refine eq_of_bitAt_eq fun p h1 h28 => ?_
  rw [bitAt_rol28 x n h1 h28, h p h1 h28]
  exact h _ (by omega) (by omega)

/-- Rotating twice rotates by the sum, round the 28. -/
theorem rol28_rol28 (a b : Nat) : rol28 (rol28 x a) b = rol28 x ((a + b) % 28) := by
  refine eq_of_bitAt_eq fun p h1 h28 => ?_
  have hsum : ((p - 1 + b) % 28 + 1 - 1 + a) % 28 = (p - 1 + (a + b) % 28) % 28 := by omega
  rw [bitAt_rol28 _ b h1 h28, bitAt_rol28 x a (by omega) (by omega), bitAt_rol28 x _ h1 h28, hsum]

/-- A count of 28 more rotates alike. -/
@[simp] theorem rol28_mod (n : Nat) : rol28 x (n % 28) = rol28 x n := BitVec.rotateLeft_mod_eq_rotateLeft

/-- Rotating by no position changes nothing. -/
@[simp] theorem rol28_zero : rol28 x 0 = x := by
  refine eq_of_bitAt_eq fun p h1 h28 => ?_
  have hp : (p - 1 + 0) % 28 + 1 = p := by omega
  rw [bitAt_rol28 x 0 h1 h28, hp]

/-- `n` one-bit rotations are the rotation by `n`. -/
theorem foldl_rol28_one (n : Nat) : (List.range n).foldl (fun y _ => rol28 y 1) x = rol28 x n := by
  induction n with
  | zero => exact (rol28_zero x).symm
  | succ n ih => rw [List.range_succ, List.foldl_concat, ih, rol28_rol28, rol28_mod]

/-- The rotation in the register view: what leaves on the left comes in on the right (40_bitvector.md rule R96). -/
theorem toNat_rol28 (hn : n < 28) : (rol28 x n).toNat = (x.toNat * 2 ^ n + x.toNat / 2 ^ (28 - n)) % 2 ^ 28 := by
  have hpow : (2 : Nat) ^ 28 = 2 ^ n * 2 ^ (28 - n) := by rw [← pow_add, Nat.add_sub_cancel' hn.le]
  have hin : x.toNat / 2 ^ (28 - n) < 2 ^ n := by
    rw [Nat.div_lt_iff_lt_mul (Nat.two_pow_pos _), ← hpow]
    exact x.isLt
  have hkept : x.toNat * 2 ^ n % 2 ^ 28 = 2 ^ n * (x.toNat % 2 ^ (28 - n)) := by
    rw [hpow, Nat.mul_comm, Nat.mul_mod_mul_left]
  have hfit : 2 ^ n * (x.toNat % 2 ^ (28 - n)) + x.toNat / 2 ^ (28 - n) < 2 ^ 28 := by
    have hlow : x.toNat % 2 ^ (28 - n) + 1 ≤ 2 ^ (28 - n) := Nat.mod_lt _ (Nat.two_pow_pos _)
    calc _ < 2 ^ n * (x.toNat % 2 ^ (28 - n) + 1) := by rw [Nat.mul_succ]; omega
      _ ≤ 2 ^ n * 2 ^ (28 - n) := Nat.mul_le_mul_left _ hlow
      _ = 2 ^ 28 := hpow.symm
  calc (rol28 x n).toNat
    _ = x.toNat * 2 ^ n % 2 ^ 28 ||| x.toNat / 2 ^ (28 - n) := by
      rw [rol28, BitVec.toNat_rotateLeft, Nat.mod_eq_of_lt hn, Nat.shiftLeft_eq, Nat.shiftRight_eq_div_pow]
    _ = 2 ^ n * (x.toNat % 2 ^ (28 - n)) + x.toNat / 2 ^ (28 - n) := by rw [hkept, Nat.two_pow_add_eq_or_of_lt hin]
    _ = (x.toNat * 2 ^ n + x.toNat / 2 ^ (28 - n)) % 2 ^ 28 := by
      rw [← Nat.mod_eq_of_lt hfit, ← hkept, Nat.mod_add_mod]

end rotation

/-- Settles O17: a rotation is known by where its positions come from, and in the register view by its two shifts. -/
theorem rotationPositions : Obligations.RotationPositions := by
  refine ⟨fun x n p => bitAt_rol28 x n, fun n => ⟨?zeros, ?ones⟩, rol28_rol28, fun x n hn => toNat_rol28 x (by omega),
    fun x => ?whole, by decide, by decide⟩
  case zeros => exact rol28_eq_self_of_constant 0 (c := false) n fun p _ _ => BitVec.getMsbD_zero
  case ones =>
    exact rol28_eq_self_of_constant (BitVec.allOnes 28) (c := true) n fun p _ _ =>
      BitVec.getMsbD_allOnes.trans (decide_eq_true (by omega))
  case whole => rw [foldl_rol28_one, ← rol28_mod, rol28_zero]

/-! SUPPORT. The complement, through the key schedule and the block cipher. -/

/-- A table takes the complement to the complement: its entries name positions that exist. -/
@[simp] theorem applyTable_not {W N : Nat} (x : BitVec W) (T : PermTable W N) :
    applyTable (~~~x) T = ~~~applyTable x T := by
  refine eq_of_bitAt_eq fun i h1 hN => ?_
  obtain ⟨hentry1, hentryW⟩ := entry_inRange T h1 hN
  rw [bitAt_applyTable _ T h1 hN, bitAt_not x hentry1 hentryW, bitAt_not _ h1 hN, bitAt_applyTable x T h1 hN]

@[simp] theorem rol28_not (x : KeyHalf) (n : Nat) : rol28 (~~~x) n = ~~~rol28 x n := by
  refine eq_of_bitAt_eq fun p h1 h28 => ?_
  rw [bitAt_rol28 _ n h1 h28, bitAt_not x (by omega) (by omega), bitAt_not _ h1 h28, bitAt_rol28 x n h1 h28]

@[simp] theorem firstHalf_not {H : Nat} (s : BitVec (H + H)) : firstHalf H (~~~s) = ~~~firstHalf H s := by
  refine eq_of_bitAt_eq fun p h1 hH => ?_
  rw [bitAt_firstHalf _ h1 hH, bitAt_not s h1 (by omega), bitAt_not _ h1 hH, bitAt_firstHalf s h1 hH]

@[simp] theorem secondHalf_not {H : Nat} (s : BitVec (H + H)) : secondHalf H (~~~s) = ~~~secondHalf H s := by
  refine eq_of_bitAt_eq fun p h1 hH => ?_
  rw [bitAt_secondHalf _ h1 hH, bitAt_not s (by omega) (by omega), bitAt_not _ h1 hH, bitAt_secondHalf s h1 hH]

/-- Complementing both operands of an exclusive or changes nothing. -/
theorem not_xor_not {w : Nat} (x y : BitVec w) : ~~~x ^^^ ~~~y = x ^^^ y := by
  rw [← BitVec.not_xor_left, ← BitVec.not_xor_right, BitVec.not_not]

/-- Every round of the schedule takes complemented halves to the complemented subkey (41_key_schedule.md rule R104). -/
theorem ksRounds_not (l : List Nat) (c d : KeyHalf) : ksRounds l (~~~c) (~~~d) = (ksRounds l c d).map (~~~·) := by
  induction l generalizing c d with
  | nil => rfl
  | cons n rest ih =>
    rw [ksRounds, rol28_not, rol28_not, ← BitVec.not_append, applyTable_not, ih, ksRounds, List.map_cons]

/-- The schedule of the complemented key is the complemented schedule (41_key_schedule.md rule R104). -/
theorem toList_ks_not (key : Block) : (ks (~~~key)).toList = (ks key).toList.map (~~~·) := by
  simp only [ks, keyC, keyD, applyTable_not, firstHalf_not, secondHalf_not, ksRounds_not, Vector.toList_mk]

/-- In either order, the subkeys of the complemented key are the complemented subkeys. -/
theorem subkeyOrder_ks_not (key : Block) (m : Bool) :
    subkeyOrder (ks (~~~key)) m = (subkeyOrder (ks key) m).map (~~~·) := by
  cases m <;> simp [subkeyOrder, toList_ks_not]

/-- The round function does not see its operands complemented: the exclusive or cancels it (42_round_function.md rule
R124). -/
theorem roundFn_not (r : Half) (k : Subkey) : roundFn (~~~r) (~~~k) = roundFn r k := by
  rw [roundFn, applyTable_not, not_xor_not, roundFn]

/-- Both halves complemented. -/
def notHalves (h : Half × Half) : Half × Half := (~~~h.1, ~~~h.2)

/-- One round takes complemented halves and subkey to complemented halves (43_block_cipher.md rule R143). -/
theorem feistelRound_not (h : Half × Half) (k : Subkey) :
    feistelRound (notHalves h) (~~~k) = notHalves (feistelRound h k) := by
  simp only [feistelRound, notHalves, roundFn_not, BitVec.not_xor_left]

/-- So do all the rounds (43_block_cipher.md rule R144). -/
theorem foldl_feistelRound_not (l : List Subkey) (h : Half × Half) :
    (l.map (~~~·)).foldl feistelRound (notHalves h) = notHalves (l.foldl feistelRound h) := by
  rw [List.foldl_map]
  exact List.foldl_hom notHalves feistelRound_not

theorem initialHalves_not (x : Block) : initialHalves (~~~x) = notHalves (initialHalves x) := by
  simp only [initialHalves, notHalves, applyTable_not, firstHalf_not, secondHalf_not]

theorem assemble_notHalves (h : Half × Half) : assemble (notHalves h) = ~~~assemble h := by
  rw [assemble, notHalves, ← BitVec.not_append, applyTable_not, assemble]

/-- Settles O35: each step of the cipher takes the complement to the complement. -/
theorem complementedKeyAndBlock : Obligations.ComplementedKeyAndBlock := by
  intro x key m
  rw [crypt, subkeyOrder_ks_not, initialHalves_not, foldl_feistelRound_not, assemble_notHalves, crypt]

/-! SUPPORT. The shapes of the tables. -/

theorem sboxRow_lt (b : BitVec 6) : sboxRow b < 4 := by
  have h1 := (bitAt b 1).toNat_lt
  have h6 := (bitAt b 6).toNat_lt
  unfold sboxRow
  omega

theorem sboxColumn_lt (b : BitVec 6) : sboxColumn b < 16 := by
  have h2 := (bitAt b 2).toNat_lt
  have h3 := (bitAt b 3).toNat_lt
  have h4 := (bitAt b 4).toNat_lt
  have h5 := (bitAt b 5).toNat_lt
  unfold sboxColumn
  omega

/-- `IP` names each position of a block once (43_block_cipher.md rule R140). -/
theorem initialPerm_perm : initialPerm.entries.Perm (List.range' 1 64) := by decide

/-- `FP` names each position of a block once (43_block_cipher.md rule R141). -/
theorem finalPerm_perm : finalPerm.entries.Perm (List.range' 1 64) := by decide

/-- `P` names each position of a half-block once (42_round_function.md rule R123). -/
theorem straight_perm : straight.entries.Perm (List.range' 1 32) := by decide

/-- `PC1` names each position of a key once but the parity positions (41_key_schedule.md rule R100). -/
theorem pc1_perm : pc1.entries.Perm ((List.range' 1 64).filter fun p => p % 8 != 0) := by decide

/-- `PC2` names each position of the key halves once but eight (41_key_schedule.md rule R101). -/
theorem pc2_perm :
    pc2.entries.Perm ((List.range' 1 56).filter fun p => !([9, 18, 22, 25, 35, 38, 43, 54].contains p)) := by decide

/-- `E` names the two positions at the ends of each group of four twice, the others once (42_round_function.md rule
R120). -/
theorem expansion_count :
    ∀ p ∈ List.range' 1 32, expansion.entries.count p = if p % 4 = 0 ∨ p % 4 = 1 then 2 else 1 := by decide

/-- Every S-box has four rows, each a permutation of 0 to 15 (42_round_function.md rule R121). -/
theorem sboxes_rows : ∀ S ∈ sboxes, S.length = 4 ∧ ∀ row ∈ S, row.Perm (List.range 16) := by decide

/-- Settles O16: the shape of each table, and the bounds of the two S-box indices. -/
theorem tablesWellShaped : Obligations.TablesWellShaped :=
  ⟨initialPerm_perm, finalPerm_perm, straight_perm, pc1_perm, pc2_perm, expansion_count, rfl, sboxes_rows,
    fun b => ⟨sboxRow_lt b, sboxColumn_lt b⟩⟩

end Sys2Proof.Machine

/-! SUPPORT. Family 41_key_schedule. The rounds of the schedule in closed form: round `i` compresses the first halves
rotated by `TOTAL[i]` (41_key_schedule.md rules R104 and R111). -/

namespace Sys2Proof.Machine

/-- The total of a round is the sum of the amounts up to it (41_key_schedule.md rule R102). -/
theorem sum_take_shift : ∀ i < 16, (shift.take (i + 1)).sum = total.getD i 0 := by decide

/-- The total of a round is the total before it and the amount of the round (41_key_schedule.md rule R102). -/
theorem total_succ : ∀ i < 15,
    total.getD i 0 + (if i + 1 ∈ [0, 1, 8, 15] then 1 else 2) = total.getD (i + 1) 0 := by decide

/-- Rotating two halves by one amount after the other rotates each by the sum. -/
theorem foldl_rol28_halves (l : List Nat) (c d : KeyHalf) :
    l.foldl (fun h n => (rol28 h.1 n, rol28 h.2 n)) (c, d) = (rol28 c l.sum, rol28 d l.sum) := by
  induction l generalizing c d with
  | nil => simp
  | cons n rest ih => rw [List.foldl_cons, ih, List.sum_cons, rol28_rol28, rol28_rol28, rol28_mod, rol28_mod]

/-- The subkey of a round compresses the first halves rotated by the sum of the amounts up to it. -/
theorem getElem_ksRounds (l : List Nat) (c d : KeyHalf) {i : Nat} (h : i < (ksRounds l c d).length) :
    (ksRounds l c d)[i] = applyTable (rol28 c (l.take (i + 1)).sum ++ rol28 d (l.take (i + 1)).sum) pc2 := by
  induction l generalizing c d i with
  | nil => exact absurd h (Nat.not_lt_zero i)
  | cons n rest ih =>
    cases i with
    | zero => simp [ksRounds]
    | succ i =>
      simp only [ksRounds, List.getElem_cons_succ]
      rw [ih, List.take_succ_cons, List.sum_cons, rol28_rol28, rol28_rol28, rol28_mod, rol28_mod]

/-- The two halves of a key one after the other, as they are compressed in round `i` (41_key_schedule.md rule R111). -/
def roundHalves (key : Block) (i : Nat) : BitVec 56 :=
  rol28 (keyC key) (total.getD i 0) ++ rol28 (keyD key) (total.getD i 0)

/-- Every subkey in closed form (41_key_schedule.md rules R104 and R111). -/
theorem getElem_ks (key : Block) {i : Nat} (h : i < 16) : (ks key)[i] = applyTable (roundHalves key i) pc2 := by
  rw [roundHalves, ← sum_take_shift i h]
  exact getElem_ksRounds shift _ _ _

/-- A half rotated by the amount of each round in turn is the first half rotated by the total (41_key_schedule.md rule
R111). -/
theorem eq_rol28_total {C : Nat → KeyHalf}
    (hC : ∀ i, i < 16 → C (i + 1) = rol28 (C i) (if i ∈ [0, 1, 8, 15] then 1 else 2)) {i : Nat} (h : i < 16) :
    C (i + 1) = rol28 (C 0) (total.getD i 0) := by
  induction i with
  | zero => exact hC 0 h
  | succ i ih => rw [hC (i + 1) h, ih (by omega), rol28_rol28, rol28_mod, total_succ i (by omega)]

theorem bitAt_keyC (key : Block) {p : Nat} (h1 : 1 ≤ p) (h28 : p ≤ 28) :
    bitAt (keyC key) p = bitAt (applyTable key pc1) p := bitAt_firstHalf _ h1 h28

theorem bitAt_keyD (key : Block) {p : Nat} (h1 : 1 ≤ p) (h28 : p ≤ 28) :
    bitAt (keyD key) p = bitAt (applyTable key pc1) (28 + p) := bitAt_secondHalf _ h1 h28

/-- Settles O19: sequences that start with the halves of the key and follow the recurrence are those halves, rotated by
the totals. -/
theorem keyScheduleByRounds : Obligations.KeyScheduleByRounds := by
  intro key C D hstart hround i h
  have hC : C 0 = keyC key := eq_of_bitAt_eq fun p h1 h28 => (hstart p h1 h28).1.trans (bitAt_keyC key h1 h28).symm
  have hD : D 0 = keyD key := eq_of_bitAt_eq fun p h1 h28 => (hstart p h1 h28).2.trans (bitAt_keyD key h1 h28).symm
  rw [getElem_ks key h, roundHalves, eq_rol28_total (fun i hi => (hround i hi).1) h,
    eq_rol28_total (fun i hi => (hround i hi).2) h, hC, hD]

/-- Settles O21: the rotations of the rounds add up to the total. -/
theorem cumulativeEqualsTotal : Obligations.CumulativeEqualsTotal := fun key i h => by
  rw [halvesAfter, foldl_rol28_halves, sum_take_shift i h]

/-- Settles O22: the last total is the width of a half, and rotating a half by its width changes nothing. -/
theorem halvesComeHome : Obligations.HalvesComeHome := by
  have hwhole : ∀ x : KeyHalf, rol28 x 28 = x := fun x => by rw [← rol28_mod, Nat.mod_self, rol28_zero]
  refine ⟨rfl, fun key => ?_⟩
  calc halvesAfter key 16
    _ = (rol28 (keyC key) 28, rol28 (keyD key) 28) := cumulativeEqualsTotal key 15 (by decide)
    _ = halvesAfter key 0 := by rw [hwhole, hwhole]; rfl

/-! SUPPORT. Which key bits a subkey is made of. -/

section append
variable {W N : Nat} (x : BitVec W) (y : BitVec N) {p : Nat}

/-- The first positions of two sequences joined are those of the first (00_scope.md rule R9). -/
theorem bitAt_append_of_le (h1 : 1 ≤ p) (hW : p ≤ W) : bitAt (x ++ y) p = bitAt x p := by
  rw [bitAt, BitVec.getMsbD_append, if_neg (by omega), bitAt]

/-- The positions after them are those of the second. -/
theorem bitAt_append_add (h1 : 1 ≤ p) : bitAt (x ++ y) (W + p) = bitAt y p := by
  have hp : W + p - 1 - W = p - 1 := by omega
  rw [bitAt, BitVec.getMsbD_append, if_pos (by omega), hp, bitAt]

end append

/-- The position of the parity-dropped key that stands at position `q` of the two halves in round `i`: each half turned by
the total of the round (41_key_schedule.md rule R111). -/
def droppedPosition (i q : Nat) : Nat :=
  if q ≤ 28 then (q - 1 + total.getD i 0) % 28 + 1 else 28 + ((q - 29 + total.getD i 0) % 28 + 1)

theorem droppedPosition_inRange (i q : Nat) : 1 ≤ droppedPosition i q ∧ droppedPosition i q ≤ 56 := by
  unfold droppedPosition
  split <;> omega

/-- The key position of a subkey bit, read off the two tables through the turned halves. -/
theorem keyPosition_eq (i p : Nat) :
    keyPosition i p = pc1.entries.getD (droppedPosition i (pc2.entries.getD (p - 1) 0) - 1) 0 := by
  unfold keyPosition droppedPosition
  split <;> rfl

/-- The halves of a round hold the bits of the parity-dropped key, each half turned (40_bitvector.md rule R96). -/
theorem bitAt_roundHalves (key : Block) (i : Nat) {q : Nat} (h1 : 1 ≤ q) (h56 : q ≤ 56) :
    bitAt (roundHalves key i) q = bitAt (applyTable key pc1) (droppedPosition i q) := by
  unfold roundHalves droppedPosition
  split
  case isTrue h28 => rw [bitAt_append_of_le _ _ h1 h28, bitAt_rol28 _ _ h1 h28, bitAt_keyC key (by omega) (by omega)]
  case isFalse h28 =>
    obtain ⟨r, rfl⟩ : ∃ r, q = 28 + (r + 1) := ⟨q - 29, by omega⟩
    have hr : 28 + (r + 1) - 29 = r := by omega
    rw [bitAt_append_add _ _ (by omega), bitAt_rol28 _ _ (by omega) (by omega), bitAt_keyD key (by omega) (by omega), hr,
      Nat.add_sub_cancel]

/-- Settles O20: through `PC2`, the turned halves and `PC1`. -/
theorem subkeyBitsByKeyPosition : Obligations.SubkeyBitsByKeyPosition := by
  intro key i p h h1 h48
  obtain ⟨hq1, hq56⟩ := entry_inRange pc2 h1 h48
  obtain ⟨hd1, hd56⟩ := droppedPosition_inRange i (pc2.entries.getD (p - 1) 0)
  rw [getElem_ks key h, bitAt_applyTable _ pc2 h1 h48, bitAt_roundHalves key i hq1 hq56,
    bitAt_applyTable key pc1 hd1 hd56, keyPosition_eq]

/-- The key position of a subkey bit is an entry of `PC1`. -/
theorem keyPosition_mem (i p : Nat) : keyPosition i p ∈ pc1.entries := by
  obtain ⟨hd1, hd56⟩ := droppedPosition_inRange i (pc2.entries.getD (p - 1) 0)
  rw [keyPosition_eq, List.getD_eq_getElem _ 0 (by rw [pc1.length_eq]; omega)]
  exact List.getElem_mem _

/-- The entries of `PC1` are the positions of a key off the parity positions (41_key_schedule.md rule R100). -/
theorem mem_pc1 (p : Nat) : p ∈ pc1.entries ↔ (1 ≤ p ∧ p ≤ 64) ∧ p % 8 ≠ 0 := by
  rw [pc1_perm.mem_iff, List.mem_filter, List.mem_range'_1, bne_iff_ne, Nat.lt_succ_iff]

/-- Settles O23: no subkey bit is taken from a parity position. -/
theorem parityBitsDoNotMatter : Obligations.ParityBitsDoNotMatter := by
  refine fun key key' heq => Vector.ext fun i h => eq_of_bitAt_eq fun p h1 h48 => ?_
  obtain ⟨⟨hk1, hk64⟩, hparity⟩ := (mem_pc1 _).1 (keyPosition_mem i p)
  rw [subkeyBitsByKeyPosition key i p h h1 h48, subkeyBitsByKeyPosition key' i p h h1 h48]
  exact heq _ hk1 hk64 hparity

/-! SUPPORT. How far one bit of the key reaches. -/

/-- The key positions of the bits of the subkey of round `i`, in order. -/
def keyPositions (i : Nat) : List Nat := pc2.entries.map fun q => pc1.entries.getD (droppedPosition i q - 1) 0

/-- Bit by bit, they are the positions the subkey is taken from. -/
theorem keyPositions_eq_map_range (i : Nat) : keyPositions i = (List.range 48).map fun q => keyPosition i (q + 1) := by
  have hpc2 : pc2.entries = (List.range 48).map fun q => pc2.entries.getD q 0 := by decide
  rw [keyPositions, hpc2, List.map_map]
  exact List.map_congr_left fun q _ => (keyPosition_eq i (q + 1)).symm

/-- The position of the two halves of round `i` at which position `j` of the parity-dropped key stands: each half turned
back by the total of the round. -/
def turnedPosition (i j : Nat) : Nat :=
  if j ≤ 28 then (j - 1 + (28 - total.getD i 0)) % 28 + 1 else 28 + ((j - 29 + (28 - total.getD i 0)) % 28 + 1)

theorem turnedPosition_inRange (i j : Nat) : 1 ≤ turnedPosition i j ∧ turnedPosition i j ≤ 56 := by
  unfold turnedPosition
  split <;> omega

/-- Turning back undoes the turn. -/
theorem droppedPosition_eq_iff {i q j : Nat} (hi : i < 16) (hq : 1 ≤ q ∧ q ≤ 56) (hj : 1 ≤ j ∧ j ≤ 56) :
    droppedPosition i q = j ↔ q = turnedPosition i j := by
  have htotal : ∀ i < 16, total.getD i 0 ≤ 28 := by decide
  have := htotal i hi
  unfold droppedPosition turnedPosition
  split <;> split <;> omega

/-- `PC1` takes different positions from different positions. -/
theorem pc1_entry_injective {j k : Nat} (hj : 1 ≤ j ∧ j ≤ 56) (hk : 1 ≤ k ∧ k ≤ 56)
    (h : pc1.entries.getD (j - 1) 0 = pc1.entries.getD (k - 1) 0) : j = k := by
  have hnodup : pc1.entries.Nodup := pc1_perm.nodup_iff.2 (List.Nodup.filter _ List.nodup_range')
  have hlength : pc1.entries.length = 56 := pc1.length_eq
  rw [List.getD_eq_getElem _ 0 (by omega), List.getD_eq_getElem _ 0 (by omega), hnodup.getElem_inj_iff] at h
  omega

/-- No two bits of a subkey are taken from one key position. -/
theorem keyPositions_nodup {i : Nat} (hi : i < 16) : (keyPositions i).Nodup := by
  have hpc2 : pc2.entries.Nodup := pc2_perm.nodup_iff.2 (List.Nodup.filter _ List.nodup_range')
  refine hpc2.map_on fun q hq q' hq' h => ?_
  have hrange := droppedPosition_inRange i
  have hdropped := pc1_entry_injective (hrange q) (hrange q') h
  rw [(droppedPosition_eq_iff hi (pc2.inRange q hq) (hrange q')).1 hdropped,
    ← (droppedPosition_eq_iff hi (pc2.inRange q' hq') (hrange q')).1 rfl]

/-- The positions of the two halves that no subkey bit is taken from (41_key_schedule.md rule R101). -/
def unselected : List Nat := [9, 18, 22, 25, 35, 38, 43, 54]

/-- `PC2` selects every other position of the two halves. -/
theorem mem_pc2 {q : Nat} (hq : 1 ≤ q ∧ q ≤ 56) : q ∈ pc2.entries ↔ q ∉ unselected := by
  rw [pc2_perm.mem_iff, List.mem_filter, List.mem_range'_1, Bool.not_eq_true', List.contains_eq_mem,
    decide_eq_false_iff_not]
  exact and_iff_right ⟨hq.1, Nat.lt_succ_of_le hq.2⟩

/-- A key bit is in a subkey exactly when it does not stand at an unselected position in that round (41_key_schedule.md
rule R113). -/
theorem mem_keyPositions_iff {i j : Nat} (hi : i < 16) (hj : 1 ≤ j ∧ j ≤ 56) :
    pc1.entries.getD (j - 1) 0 ∈ keyPositions i ↔ turnedPosition i j ∉ unselected := by
  rw [← mem_pc2 (turnedPosition_inRange i j), keyPositions, List.mem_map]
  constructor
  · rintro ⟨q, hq, h⟩
    have hdropped := pc1_entry_injective (droppedPosition_inRange i q) hj h
    exact (droppedPosition_eq_iff hi (pc2.inRange q hq) hj).1 hdropped ▸ hq
  · intro h
    exact ⟨_, h, by rw [(droppedPosition_eq_iff hi (pc2.inRange _ h) hj).2 rfl]⟩

/-- In 12 to 15 of the sixteen rounds a bit does not stand at an unselected position: the evaluation of 41_key_schedule.md
rule R113, over the 56 positions. -/
theorem selectedRounds_bounds : ∀ j ∈ List.range' 1 56,
    12 ≤ (List.finRange 16).countP (fun i : Fin 16 => turnedPosition i j ∉ unselected) ∧
      (List.finRange 16).countP (fun i : Fin 16 => turnedPosition i j ∉ unselected) ≤ 15 := by decide +kernel

/-- Changing the bit at one position changes that position and no other. -/
theorem bitAt_flipAt {N : Nat} (x : BitVec N) {p q : Nat} (hp1 : 1 ≤ p) (hpN : p ≤ N) (hq1 : 1 ≤ q) (hqN : q ≤ N) :
    bitAt (flipAt x p) q = (bitAt x q ^^ (q == p)) := by
  have hsame : N - p = N - q ↔ q = p := by omega
  rw [flipAt, ← BitVec.twoPow_eq, bitAt_eq_getLsbD _ hq1 hqN, bitAt_eq_getLsbD _ hq1 hqN, BitVec.getLsbD_xor,
    BitVec.getLsbD_twoPow, decide_eq_true (by omega : N - p < N), Bool.true_and, decide_eq_decide.2 hsame, beq_eq_decide]

/-- Two sequences are the same exactly when they differ nowhere. -/
theorem differences_eq_zero_iff {N : Nat} (x y : BitVec N) : differences x y = 0 ↔ x = y := by
  rw [differences, List.countP_eq_zero]
  constructor
  · intro h
    refine eq_of_bitAt_eq fun p h1 hN => ?_
    simpa [Nat.sub_add_cancel h1] using h (p - 1) (List.mem_range.2 (by omega))
  · rintro rfl
    simp

/-- A changed key bit is seen in a subkey at the bits taken from its position. -/
theorem differences_ks_flipAt (key : Block) {p i : Nat} (h1 : 1 ≤ p) (h64 : p ≤ 64) (h : i < 16) :
    differences (ks (flipAt key p))[i] (ks key)[i] = (keyPositions i).count p := by
  have hseen : ∀ old flipped : Bool, ((old ^^ flipped) != old) = flipped := by decide
  rw [differences, keyPositions_eq_map_range, List.count, List.countP_map]
  refine List.countP_congr fun q hq => ?_
  rw [List.mem_range] at hq
  obtain ⟨⟨hk1, hk64⟩, _⟩ := (mem_pc1 _).1 (keyPosition_mem i (q + 1))
  rw [subkeyBitsByKeyPosition _ i _ h (by omega) (by omega), subkeyBitsByKeyPosition _ i _ h (by omega) (by omega),
    bitAt_flipAt key h1 h64 hk1 hk64, hseen, Function.comp_apply]

/-- A changed key bit changes exactly the subkeys it is in. -/
theorem ks_flipAt_ne_iff (key : Block) {p i : Nat} (h1 : 1 ≤ p) (h64 : p ≤ 64) (h : i < 16) :
    (ks (flipAt key p))[i] ≠ (ks key)[i] ↔ p ∈ keyPositions i := by
  rw [ne_eq, ← differences_eq_zero_iff, differences_ks_flipAt key h1 h64 h, List.count_eq_zero, not_not]

/-- Settles O24: a subkey takes a key bit at most once, and it takes one off the parity positions in the rounds
in which the bit stands at a selected position. -/
theorem oneKeyBitReaches : Obligations.OneKeyBitReaches := by
  refine fun key p h1 h64 => ⟨fun i h => ?atMostOne, fun hparity => ?rounds⟩
  case atMostOne =>
    rw [differences_ks_flipAt key h1 h64 h]
    exact List.nodup_iff_count_le_one.1 (keyPositions_nodup h) p
  case rounds =>
    obtain ⟨k, hk, hp⟩ := List.mem_iff_getElem.1 ((mem_pc1 p).2 ⟨⟨h1, h64⟩, hparity⟩)
    have hk56 : k < 56 := hk.trans_eq pc1.length_eq
    have hentry : pc1.entries.getD (k + 1 - 1) 0 = p := (List.getD_eq_getElem _ 0 hk).trans hp
    have hcount : (List.finRange 16).countP (fun i => (ks (flipAt key p))[i] != (ks key)[i]) =
        (List.finRange 16).countP (fun i : Fin 16 => turnedPosition i (k + 1) ∉ unselected) := by
      refine List.countP_congr fun i _ => ?_
      rw [bne_iff_ne, decide_eq_true_iff, ← mem_keyPositions_iff i.isLt (by omega), hentry]
      exact ks_flipAt_ne_iff key h1 h64 i.isLt
    rw [hcount]
    exact selectedRounds_bounds (k + 1) (List.mem_range'_1.2 (by omega))

/-- `KSCHED` needs `KEY` (41_key_schedule.md rule R106). -/
theorem execKsched_unwritten {s : State} (h : s.key.written = false) : execKsched s = .fault .unwrittenOperand := by
  rw [execKsched, needOperand_unwritten _ _ h]

/-- The first and the last subkey of the worked example (41_key_schedule.md rule R106). -/
theorem ks_example : (ks 0x133457799BBCDFF1#64)[0] = 0x1B02EFFC7072#48 ∧
    (ks 0x133457799BBCDFF1#64)[15] = 0xCB3D8B0E17F5#48 := by decide +kernel

/-- Settles O18: `KSCHED` derives the schedule of a written `KEY` and faults on an unwritten one. -/
theorem kschedDerivesRoundKeys : Obligations.KschedDerivesRoundKeys :=
  ⟨rfl, fun s hw => ⟨_, (execKsched_next s _).2 ⟨hw, rfl⟩, withErr_withRkv_fields false s.status⟩,
    fun _ hw => execKsched_unwritten hw, ks_example⟩

end Sys2Proof.Machine

/-! SUPPORT. Family 42_round_function. Every stage of the round function by positions: the groups of the mixed value,
the four bits of each S-box output, and their concatenation. -/

namespace Sys2Proof.Machine

/-- Position by position, the exclusive or is the exclusive or of the bits. -/
theorem bitAt_xor {N : Nat} (x y : BitVec N) (p : Nat) : bitAt (x ^^^ y) p = (bitAt x p ^^ bitAt y p) :=
  BitVec.getMsbD_xor

/-- Position `p` of two sequences joined, past the first, is a position of the second (00_scope.md rule R9). -/
theorem bitAt_append_of_lt {W N : Nat} (x : BitVec W) (y : BitVec N) {p : Nat} (hW : W < p) :
    bitAt (x ++ y) p = bitAt y (p - W) := by
  conv_lhs => rw [← Nat.add_sub_cancel' hW.le]
  exact bitAt_append_add x y (by omega)

section stages
variable (x : Subkey) {g t : Nat}

/-- Position `t+1` of group `g` is position `6g+t+1` of the whole (40_bitvector.md rule R95). -/
theorem bitAt_group (hg : g < 8) (ht : t < 6) : bitAt (group x g) (t + 1) = bitAt x (6 * g + t + 1) := by
  have hplace : 42 - 6 * g + (6 - (t + 1)) = 48 - (6 * g + t + 1) := by omega
  rw [bitAt_eq_getLsbD _ (by omega) (by omega), bitAt_eq_getLsbD x (by omega) (by omega), group,
    BitVec.getLsbD_extractLsb', decide_eq_true (by omega : 6 - (t + 1) < 6), Bool.true_and, hplace]

/-- The four bits of an S-box value are emitted most significant first (42_round_function.md rule R122). -/
theorem bitAt_substituteGroup (ht : t < 4) : bitAt (substituteGroup x g) (t + 1) =
    (sboxEntry g (sboxRow (group x g)) (sboxColumn (group x g))).testBit (3 - t) := by
  have hplace : 4 - (t + 1) = 3 - t := by omega
  rw [bitAt_eq_getLsbD _ (by omega) (by omega), substituteGroup, BitVec.getLsbD_ofNat, hplace,
    decide_eq_true (by omega : 3 - t < 4), Bool.true_and]

/-- The S-box outputs stand one after the other, four positions each (42_round_function.md rule R124). -/
theorem bitAt_substitute (hg : g < 8) (ht : t < 4) :
    bitAt (substitute x) (4 * g + t + 1) = bitAt (substituteGroup x g) (t + 1) := by
  unfold substitute
  interval_cases g <;>
    · simp (disch := omega) only [bitAt_append_of_le, bitAt_append_of_lt]
      congr 1
      omega

end stages

/-- A bit of a group of the expanded and mixed half (42_round_function.md rules R120 and R124). -/
theorem bitAt_group_mixed (r : Half) (k : Subkey) {g t : Nat} (hg : g < 8) (ht : t < 6) :
    bitAt (group (applyTable r expansion ^^^ k) g) (t + 1) =
      (bitAt r (expansion.entries.getD (6 * g + t) 0) ^^ bitAt k (6 * g + t + 1)) := by
  rw [bitAt_group _ hg ht, bitAt_xor, bitAt_applyTable r expansion (by omega) (by omega), Nat.add_sub_cancel]

/-- Settles O26: position `p` takes through `P` a bit of the S-box output of one group, whose row and column are the
outer and inner bits of that group of the mixed half. -/
theorem roundFunctionByPosition : Obligations.RoundFunctionByPosition := by
  intro r k p h1 h32 j b
  obtain ⟨hentry1, hentry32⟩ := entry_inRange straight h1 h32
  have hg : j / 4 < 8 := by omega
  have hentry : straight.entries.getD (p - 1) 0 = 4 * (j / 4) + j % 4 + 1 := by omega
  have hbit : ∀ t < 6, bitAt (group (applyTable r expansion ^^^ k) (j / 4)) (t + 1) = b t := fun t ht =>
    bitAt_group_mixed r k hg ht
  rw [roundFn, bitAt_applyTable _ straight h1 h32, hentry, bitAt_substitute _ hg (by omega),
    bitAt_substituteGroup _ (by omega), sboxRow, sboxColumn, hbit 0 (by decide), hbit 1 (by decide), hbit 2 (by decide),
    hbit 3 (by decide), hbit 4 (by decide), hbit 5 (by decide)]

/-! SUPPORT. Where two sequences differ after a table. -/

section tableDifferences
variable {W N : Nat} (T : PermTable W N)

/-- The entries of a table, read off one after the other. -/
theorem entries_eq_map_range : T.entries = (List.range N).map fun q => T.entries.getD q 0 :=
  List.ext_getElem (by simp [T.length_eq]) fun q hq _ => by simp [List.getElem?_eq_getElem hq]

/-- After a table two sequences differ once for each entry that names a position at which they differ (40_bitvector.md
rule R92). -/
theorem differences_applyTable (x y : BitVec W) :
    differences (applyTable x T) (applyTable y T) = T.entries.countP fun p => bitAt x p != bitAt y p := by
  conv_rhs => rw [entries_eq_map_range T]
  rw [differences, List.countP_map]
  refine List.countP_congr fun q hq => ?_
  have hqN : q < N := List.mem_range.1 hq
  rw [bitAt_applyTable x T (i := q + 1) (by omega) hqN, bitAt_applyTable y T (i := q + 1) (by omega) hqN,
    Nat.add_sub_cancel, Function.comp_apply]

/-- A difference at one position alone is seen once for each time the table uses that position. -/
theorem differences_applyTable_of_one {x y : BitVec W} {p : Nat}
    (hone : ∀ q, 1 ≤ q → q ≤ W → (bitAt x q ≠ bitAt y q ↔ q = p)) :
    differences (applyTable x T) (applyTable y T) = T.entries.count p := by
  rw [differences_applyTable, List.count]
  refine List.countP_congr fun q hq => ?_
  obtain ⟨h1, hW⟩ := T.inRange q hq
  rw [bne_iff_ne, beq_iff_eq, hone q h1 hW]

end tableDifferences

/-- The positions `E` uses twice are those that are not among the sixteen used once (42_round_function.md rule R120). -/
theorem expansion_twice_iff : ∀ p ∈ List.range' 1 32, (p % 4 = 0 ∨ p % 4 = 1) ↔
    p ∉ [2, 3, 6, 7, 10, 11, 14, 15, 18, 19, 22, 23, 26, 27, 30, 31] := by decide

/-- Settles O27: the difference is seen as often as `E` uses its position. -/
theorem expansionDifferences : Obligations.ExpansionDifferences := by
  refine ⟨fun r r' p h1 h32 hone => ?_, by decide, by decide⟩
  have hp : p ∈ List.range' 1 32 := List.mem_range'_1.2 (by omega)
  rw [differences_applyTable_of_one expansion hone, expansion_count p hp, if_congr (expansion_twice_iff p hp) rfl rfl,
    ite_not]

/-- The round function is a function of the mixed value alone (42_round_function.md rule R128). -/
theorem roundFn_congr {r r' : Half} {k k' : Subkey}
    (h : applyTable r expansion ^^^ k = applyTable r' expansion ^^^ k') : roundFn r k = roundFn r' k' := by
  rw [roundFn, h, roundFn]

/-- On zero operands every S-box gives its first entry (42_round_function.md rule R126). -/
theorem roundFn_zero : roundFn 0#32 0#48 = 0xD8D8DBBC#32 := by decide +kernel

/-- Two halves that the three S-boxes they differ at take to the same outputs. -/
theorem roundFn_collision : roundFn 0x19600000#32 0x2FD3C0000000#48 = roundFn 0#32 0x2FD3C0000000#48 := by
  decide +kernel

/-- Settles O28: two halves with the same value show that it is not injective, and its value at zero, which linearity
would make zero, that it is not linear. -/
theorem roundFunctionSeesMixedValueOnly : Obligations.RoundFunctionSeesMixedValueOnly := by
  refine ⟨fun _ _ _ _ => roundFn_congr, roundFn_not 0 0, roundFn_zero, ⟨_, _, _, by decide, roundFn_collision⟩,
    0#48, 0#32, 0#32, ?_⟩
  rw [BitVec.xor_self, BitVec.xor_self, roundFn_zero]
  decide

/-- `ROUNDF` needs both its operands (42_round_function.md rule R126). -/
theorem execRoundf_unwritten {s : State} (h : s.rin.written = false ∨ s.skin.written = false) :
    execRoundf s = .fault .unwrittenOperand := by
  unfold execRoundf
  cases hrin : s.rin.written with
  | false => exact needOperand_unwritten _ _ hrin
  | true =>
    have hskin : s.skin.written = false := h.resolve_left (by simp [hrin])
    rw [needOperand_written _ _ hrin, needOperand_unwritten _ _ hskin]

/-- Settles O25: `ROUNDF` puts the value into `FOUT` with both operands written and faults without. -/
theorem roundfComputes : Obligations.RoundfComputes :=
  ⟨rfl, fun s hrin hskin => ⟨_, (execRoundf_next s _).2 ⟨hrin, hskin, rfl⟩, withErr_fields false s.status⟩,
    fun _ h => execRoundf_unwritten h, by decide +kernel, roundFn_zero, by decide, by decide, by decide, by decide,
    by decide +kernel⟩

end Sys2Proof.Machine

/-! SUPPORT. Family 43_block_cipher. The two permutations undo each other, so the block between them is the joined halves
and taking it apart again gives the halves back (43_block_cipher.md rules R142, R144 and R146). -/

namespace Sys2Proof.Machine

/-- `FP` names where `IP` puts each position (43_block_cipher.md rule R142). -/
theorem initialPerm_at_finalPerm : ∀ i ∈ List.range' 1 64,
    initialPerm.entries.getD (finalPerm.entries.getD (i - 1) 0 - 1) 0 = i := by decide

/-- `IP` names where `FP` puts each position (43_block_cipher.md rule R142). -/
theorem finalPerm_at_initialPerm : ∀ i ∈ List.range' 1 64,
    finalPerm.entries.getD (initialPerm.entries.getD (i - 1) 0 - 1) 0 = i := by decide

/-- A table undoes another on every sequence when its entries name where the other puts each position. -/
theorem applyTable_applyTable_cancel {N : Nat} {T U : PermTable N N}
    (hinv : ∀ i ∈ List.range' 1 N, T.entries.getD (U.entries.getD (i - 1) 0 - 1) 0 = i) (x : BitVec N) :
    applyTable (applyTable x T) U = x := by
  refine eq_of_bitAt_eq fun i h1 hN => ?_
  obtain ⟨hentry1, hentryN⟩ := entry_inRange U h1 hN
  rw [bitAt_applyTable _ U h1 hN, bitAt_applyTable x T hentry1 hentryN, hinv i (List.mem_range'_1.2 (by omega))]

@[simp] theorem finalPerm_initialPerm (x : Block) : applyTable (applyTable x initialPerm) finalPerm = x :=
  applyTable_applyTable_cancel initialPerm_at_finalPerm x

@[simp] theorem initialPerm_finalPerm (x : Block) : applyTable (applyTable x finalPerm) initialPerm = x :=
  applyTable_applyTable_cancel finalPerm_at_initialPerm x

/-- Settles O32: the entries of each table name where the other puts each position. -/
theorem finalPermInvertsInitial : Obligations.FinalPermInvertsInitial := by
  refine ⟨fun x => ⟨finalPerm_initialPerm x, initialPerm_finalPerm x⟩, fun i h1 h64 => ?_⟩
  have hi : i ∈ List.range' 1 64 := List.mem_range'_1.2 (by omega)
  exact ⟨initialPerm_at_finalPerm i hi, finalPerm_at_initialPerm i hi⟩

section halves
variable {H : Nat}

@[simp] theorem firstHalf_append (a b : BitVec H) : firstHalf H (a ++ b) = a :=
  eq_of_bitAt_eq fun p h1 hH => by rw [bitAt_firstHalf _ h1 hH, bitAt_append_of_le a b h1 hH]

@[simp] theorem secondHalf_append (a b : BitVec H) : secondHalf H (a ++ b) = b :=
  eq_of_bitAt_eq fun p h1 hH => by rw [bitAt_secondHalf _ h1 hH, bitAt_append_add a b h1]

/-- A sequence is its two halves joined (40_bitvector.md rule R95). -/
@[simp] theorem firstHalf_append_secondHalf (s : BitVec (H + H)) : firstHalf H s ++ secondHalf H s = s := by
  refine eq_of_bitAt_eq fun p h1 hHH => ?_
  rcases Nat.lt_or_ge H p with hp | hp
  · rw [bitAt_append_of_lt _ _ hp, bitAt_secondHalf s (by omega) (by omega), Nat.add_sub_cancel' hp.le]
  · rw [bitAt_append_of_le _ _ h1 hp, bitAt_firstHalf s h1 hp]

end halves

/-- Taking a result apart gives the last halves with left and right exchanged (43_block_cipher.md rule R146). -/
@[simp] theorem initialHalves_assemble (h : Half × Half) : initialHalves (assemble h) = h.swap := by
  rw [initialHalves, assemble, initialPerm_finalPerm, firstHalf_append, secondHalf_append, Prod.swap]

/-- Assembling the first halves exchanged gives the block back (43_block_cipher.md rule R146). -/
@[simp] theorem assemble_swap_initialHalves (x : Block) : assemble (initialHalves x).swap = x := by
  rw [assemble, initialHalves, Prod.swap, firstHalf_append_secondHalf, finalPerm_initialPerm]

/-! SUPPORT. The rounds, by the list of subkeys they use. -/

@[simp] theorem subkeyOrder_length (K : Schedule) (m : Bool) : (subkeyOrder K m).length = 16 := by
  cases m <;> simp [subkeyOrder]

/-- The subkey of each round (43_block_cipher.md rule R145). -/
theorem getElem_subkeyOrder (K : Schedule) (m : Bool) {i : Nat} (h : i < 16) :
    (subkeyOrder K m)[i]'(by simpa using h) = if m then K[i] else K[15 - i] := by
  cases m <;> simp [subkeyOrder]

/-- Each mode uses the subkeys of the other in reverse (43_block_cipher.md rule R145). -/
theorem subkeyOrder_not (K : Schedule) (m : Bool) : subkeyOrder K (!m) = (subkeyOrder K m).reverse := by
  cases m <;> simp [subkeyOrder]

/-- Sequences of halves that go on round by round are the halves after so many rounds (43_block_cipher.md rule R143). -/
theorem eq_foldl_take_feistelRound {L R : Nat → Half} {l : List Subkey}
    (hround : ∀ (i : Nat) (h : i < l.length), L (i + 1) = R i ∧ R (i + 1) = L i ^^^ roundFn (R i) l[i]) {i : Nat}
    (h : i ≤ l.length) : (L i, R i) = (l.take i).foldl feistelRound (L 0, R 0) := by
  induction i with
  | zero => rfl
  | succ i ih =>
    obtain ⟨hL, hR⟩ := hround i h
    rw [List.take_succ_eq_append_getElem h, List.foldl_concat, ← ih (Nat.le_of_lt h), feistelRound, hL, hR]

/-- Settles O31: the sequences start with the halves of the permuted block and are the halves of each round. -/
theorem cryptByRounds : Obligations.CryptByRounds := by
  intro x K m L R hstart hround
  have hL : L 0 = (initialHalves x).1 := eq_of_bitAt_eq fun p h1 h32 =>
    (hstart p h1 h32).1.trans (bitAt_firstHalf _ h1 h32).symm
  have hR : R 0 = (initialHalves x).2 := eq_of_bitAt_eq fun p h1 h32 =>
    (hstart p h1 h32).2.trans (bitAt_secondHalf _ h1 h32).symm
  have hlen : (subkeyOrder K m).length = 16 := subkeyOrder_length K m
  have hrounds : (L 16, R 16) = ((subkeyOrder K m).take 16).foldl feistelRound (L 0, R 0) :=
    eq_foldl_take_feistelRound (fun i hi => getElem_subkeyOrder K m (hlen ▸ hi) ▸ hround i (hlen ▸ hi)) hlen.ge
  rw [List.take_of_length_le hlen.le, hL, hR] at hrounds
  rw [crypt, ← hrounds, assemble]

/-- A round undoes itself when left and right are exchanged (43_block_cipher.md rule R149). -/
theorem feistelRound_swap_feistelRound (h : Half × Half) (k : Subkey) :
    feistelRound (feistelRound h k).swap k = h.swap := by
  simp [feistelRound, Prod.swap]

/-- Rounds with the subkeys in reverse order undo the rounds, on exchanged halves (43_block_cipher.md rule R149). -/
theorem foldl_reverse_feistelRound (l : List Subkey) (h : Half × Half) :
    l.reverse.foldl feistelRound (l.foldl feistelRound h).swap = h.swap := by
  induction l generalizing h with
  | nil => rfl
  | cons k rest ih =>
    rw [List.reverse_cons, List.foldl_concat, List.foldl_cons, ih, feistelRound_swap_feistelRound]

/-- Each mode undoes the other, for any sixteen subkeys (43_block_cipher.md rule R149). -/
theorem crypt_crypt_not (x : Block) (K : Schedule) (m : Bool) : crypt (crypt x K m) K (!m) = x := by
  rw [crypt, crypt, initialHalves_assemble, subkeyOrder_not, foldl_reverse_feistelRound, assemble_swap_initialHalves]

/-- The first rounds in reverse order undo the last ones (43_block_cipher.md rule R149). -/
theorem foldl_take_reverse_feistelRound (l : List Subkey) (h : Half × Half) (j : Nat) :
    (l.reverse.take j).foldl feistelRound (l.foldl feistelRound h).swap =
      ((l.take (l.length - j)).foldl feistelRound h).swap := by
  have hall : l.foldl feistelRound h =
      (l.drop (l.length - j)).foldl feistelRound ((l.take (l.length - j)).foldl feistelRound h) := by
    rw [← List.foldl_append, List.take_append_drop]
  rw [List.take_reverse, hall, foldl_reverse_feistelRound]

/-- Settles O34: the first `j` rounds of decryption undo the last `j` of encryption. -/
theorem decryptionRetracesEncryption : Obligations.DecryptionRetracesEncryption := by
  intro x K j _
  rw [crypt, initialHalves_assemble, ← Bool.not_true, subkeyOrder_not, foldl_take_reverse_feistelRound,
    subkeyOrder_length]

/-! SUPPORT. Data as its blocks of 8 bytes (44_ecb_framer.md rule R161). -/

/-- Whole blocks of data one after the other are the data up to there. -/
theorem flatMap_blockBytes (data : List Byte) (n : Nat) :
    (List.range n).flatMap (blockBytes data) = data.take (8 * n) := by
  induction n with
  | zero => simp
  | succ n ih =>
    rw [List.range_succ, List.flatMap_append, ih, List.flatMap_singleton, blockBytes, Nat.mul_succ, List.take_add]

/-- A block inside the data is 8 bytes. -/
theorem blockBytes_length {data : List Byte} {b : Nat} (h : b < data.length / 8) : (blockBytes data b).length = 8 := by
  rw [blockBytes, List.length_take, List.length_drop]
  omega

section blocks
variable {f : Nat → List Byte}

/-- Blocks of 8 bytes joined are 8 bytes for each block. -/
theorem length_flatMap_range (hf : ∀ b, (f b).length = 8) (n : Nat) : ((List.range n).flatMap f).length = 8 * n := by
  simp [List.length_flatMap, hf, Nat.mul_comm]

/-- Each block of blocks joined is the block that was put there. -/
theorem blockBytes_flatMap_range (hf : ∀ b, (f b).length = 8) {n b : Nat} (h : b < n) :
    blockBytes ((List.range n).flatMap f) b = f b := by
  obtain ⟨k, rfl⟩ := Nat.exists_eq_add_of_le' h
  rw [Nat.add_comm k, List.range_add, List.range_succ, List.flatMap_append, List.flatMap_append, List.flatMap_singleton,
    List.append_assoc, blockBytes, ← length_flatMap_range hf b, List.drop_left, ← hf b, List.take_left]

end blocks

theorem ecbProcess_length (data : List Byte) (key : Block) (m : Bool) :
    (ecbProcess data key m).length = 8 * (data.length / 8) := length_flatMap_range (fun _ => cryptBytes_length _ _ _) _

/-- Each block of the result is the block of the data through the cipher (44_ecb_framer.md rule R161). -/
theorem blockBytes_ecbProcess (data : List Byte) (key : Block) (m : Bool) {b : Nat} (h : b < data.length / 8) :
    blockBytes (ecbProcess data key m) b = cryptBytes (ks key) m (blockBytes data b) :=
  blockBytes_flatMap_range (fun _ => cryptBytes_length _ _ _) h

/-- Each mode undoes the other on the bytes of a block (43_block_cipher.md rule R149). -/
theorem cryptBytes_cryptBytes_not (K : Schedule) (m : Bool) {bs : List Byte} (h : bs.length = 8) :
    cryptBytes K (!m) (cryptBytes K m bs) = bs := by
  rw [cryptBytes, cryptBytes, bytesToBits_bitsToBytes, crypt_crypt_not, ← h, bitsToBytes_bytesToBits]

/-- Each mode undoes the other on whole blocks of data (43_block_cipher.md rule R149). -/
theorem ecbProcess_ecbProcess_not (data : List Byte) (key : Block) (m : Bool) (h : data.length % 8 = 0) :
    ecbProcess (ecbProcess data key m) key (!m) = data := by
  have hwhole : 8 * (data.length / 8) = data.length := by omega
  have hblock : ∀ b ∈ List.range (data.length / 8),
      cryptBytes (ks key) (!m) (blockBytes (ecbProcess data key m) b) = blockBytes data b := fun b hb => by
    have hlt : b < data.length / 8 := List.mem_range.1 hb
    rw [blockBytes_ecbProcess data key m hlt, cryptBytes_cryptBytes_not _ m (blockBytes_length hlt)]
  rw [ecbProcess, ecbProcess_length, hwhole, List.flatMap_congr hblock, flatMap_blockBytes, hwhole, List.take_length]

/-- Settles O33: reversed subkeys undo the rounds, and data are undone block by block. -/
theorem blockRoundTrip : Obligations.BlockRoundTrip :=
  ⟨fun x K => ⟨crypt_crypt_not x K true, crypt_crypt_not x K false⟩,
    fun data key h => ecbProcess_ecbProcess_not data key true h⟩

/-! SUPPORT. The block commands, by their mode. -/

section commands
variable {m : Bool} {s t : State}

/-- With its operands a block command completes (43_block_cipher.md rules R147 and R148). -/
theorem cryptBlock_completes (hrkv : s.status.getLsbD 1 = true) (hdin : s.din.written = true) :
    ∃ v, cryptBlock m s = .next { s with dout := ⟨crypt s.din.val s.rk m, true⟩, status := v } ∧
      StatusIs v s.status false true :=
  ⟨_, (cryptBlock_next m s _).2 ⟨hrkv, hdin, rfl⟩, hrkv ▸ withErr_fields false s.status⟩

/-- A block command needs the round keys first (43_block_cipher.md rule R150). -/
theorem cryptBlock_noSchedule (hrkv : s.status.getLsbD 1 = false) : cryptBlock m s = .fault .noSchedule := by
  rw [cryptBlock, needSchedule, statusRkv, hrkv, if_neg Bool.false_ne_true]

/-- With the round keys a block command needs `DIN` (43_block_cipher.md rules R147 and R148). -/
theorem cryptBlock_unwritten (hrkv : s.status.getLsbD 1 = true) (hdin : s.din.written = false) :
    cryptBlock m s = .fault .unwrittenOperand := by
  rw [cryptBlock, needSchedule, statusRkv, hrkv, if_pos rfl, needOperand_unwritten _ _ hdin]

/-- The block command of the other mode, on the result, gives the operand back (43_block_cipher.md rule R148). -/
theorem cryptBlock_undone (h : cryptBlock m s = .next t) :
    ∃ u, cryptBlock (!m) { t with din := t.dout } = .next u ∧ u.dout = s.din := by
  obtain ⟨hrkv, hdin, rfl⟩ := (cryptBlock_next m s t).1 h
  refine ⟨_, (cryptBlock_next (!m) _ _).2 ⟨(withErr_rkv false s.status).trans hrkv, rfl, rfl⟩, ?_⟩
  calc markedWith (crypt (crypt s.din.val s.rk m) s.rk (!m))
    _ = ⟨s.din.val, s.din.written⟩ := by rw [crypt_crypt_not, hdin, markedWith]

end commands

/-- The sixteen rounds of the worked example (43_block_cipher.md rule R147). -/
theorem rounds_example : (subkeyOrder (ks 0x133457799BBCDFF1#64) true).foldl feistelRound
    (0xCC00CCFF#32, 0xF0AAF0AA#32) = (0x43423234#32, 0x0A4CD995#32) := by decide +kernel

/-- The first halves of the worked example (43_block_cipher.md rule R147). -/
theorem initialHalves_example : initialHalves 0x0123456789ABCDEF#64 = (0xCC00CCFF#32, 0xF0AAF0AA#32) := by decide +kernel

/-- The result of the worked example (43_block_cipher.md rule R147). -/
theorem crypt_example : crypt 0x0123456789ABCDEF#64 (ks 0x133457799BBCDFF1#64) true = 0x85E813540F0AB405#64 := by
  rw [crypt, initialHalves_example, rounds_example]
  decide +kernel

/-- Settles O29: `ENCBLK` is the block command of mode 1. -/
theorem encblkEncrypts : Obligations.EncblkEncrypts :=
  ⟨rfl, fun _ => cryptBlock_completes, fun _ => cryptBlock_noSchedule, fun _ => cryptBlock_unwritten, by decide,
    initialHalves_example, by decide +kernel, rounds_example, rfl, crypt_example⟩

/-- Settles O30: `DECBLK` is the block command of mode 0, and its worked example is that of `ENCBLK` in reverse. -/
theorem decblkDecrypts : Obligations.DecblkDecrypts := by
  refine ⟨rfl, fun _ => cryptBlock_completes, fun _ => cryptBlock_noSchedule, fun _ => cryptBlock_unwritten,
    fun _ _ => cryptBlock_undone, fun _ _ => cryptBlock_undone, by decide, by decide +kernel, ?rounds, rfl, ?result⟩
  case rounds =>
    rw [← Bool.not_true, subkeyOrder_not]
    have h := foldl_reverse_feistelRound (subkeyOrder (ks 0x133457799BBCDFF1#64) true) (0xCC00CCFF#32, 0xF0AAF0AA#32)
    rwa [rounds_example] at h
  case result => rw [← crypt_example, ← Bool.not_true, crypt_crypt_not]

end Sys2Proof.Machine

/-! SUPPORT. Family 44_ecb_framer, the layer its proofs stand on: when an ECB command is valid, and data read and written
as blocks. -/

namespace Sys2Proof.Machine

/-- The two readings of `KLEN` agree: the field of `FCTL`, and `FCTL` modulo 256. -/
theorem fctlKlen_eq_iff (s : State) : fctlKlen s = 8 ↔ s.fctl.toNat % 256 = 8 := by
  rw [fctlKlen, ← BitVec.toNat_inj, BitVec.extractLsb'_toNat, Nat.shiftRight_zero]
  rfl

/-- The validity predicate decides the five conditions (44_ecb_framer.md rule R160). -/
theorem ecbValid_iff_preconditions (s : State) : ecbValid s = true ↔ EcbPreconditions s := by
  rw [ecbValid_iff_checks, fctlKlen_eq_iff, withinCapacity_iff]
  rfl

/-- With one of the five conditions failing an ECB command writes `ERR` only (44_ecb_framer.md rule R164). -/
theorem ecbCommand_atomic (e : Bool) {s : State} (h : ¬EcbPreconditions s) :
    ∃ v, ecbCommand e s = .next { s with status := v } ∧ StatusIs v s.status true (s.status.getLsbD 1) := by
  rw [← ecbValid_iff_preconditions, Bool.not_eq_true] at h
  exact ⟨_, ecbCommand_invalid e s h, withErr_fields true s.status⟩

/-- A valid ECB command without its key, or without all of its data, faults (10_state.md rule R37). -/
theorem ecbCommand_unwritten (e : Bool) {s : State} (hpre : EcbPreconditions s)
    (h : ¬(s.key.written = true ∧ AllWritten s.ibuf s.len.toNat)) : ecbCommand e s = .fault .unwrittenOperand := by
  rw [ecbCommand, if_pos ((ecbValid_iff_preconditions s).2 hpre)]
  by_cases hkey : s.key.written = true
  · have hdata : memRead s.ibuf 0 s.len.toNat = none := by
      rw [← Option.not_isSome_iff_eq_none, memRead_zero_isSome]
      exact fun hall => h ⟨hkey, hall⟩
    rw [needOperand_written _ _ hkey, needData, hdata]
  · exact needOperand_unwritten _ _ (Bool.eq_false_iff.2 hkey)

/-- A valid ECB command with its key and its data completes (44_ecb_framer.md rules R162 and R163). -/
theorem ecbCommand_completes (e : Bool) {s : State} {data : List Byte} (hpre : EcbPreconditions s)
    (hkey : s.key.written = true) (hdata : memRead s.ibuf 0 s.len.toNat = some data) :
    ecbCommand e s = .next (ecbDone e s data) :=
  (ecbCommand_next e s _).2 (.inr ⟨(ecbValid_iff_preconditions s).2 hpre, hkey, data, hdata, rfl⟩)

/-- A wide read gives as many bytes as it is asked for (00_scope.md rule R11). -/
theorem memRead_length {m : Memory} {a n : Nat} {bs : List Byte} (h : memRead m a n = some bs) : bs.length = n :=
  ((memRead_eq_some m a n bs).1 h).1

/-- Byte `a` of the data is byte `a mod 8` of block `a / 8`. -/
theorem getElem?_blockBytes (data : List Byte) (a : Nat) : (blockBytes data (a / 8))[a % 8]? = data[a]? := by
  rw [blockBytes, List.getElem?_take_of_lt (Nat.mod_lt a (by decide)), List.getElem?_drop, Nat.div_add_mod]

/-- The bytes of a buffer at the place of a block are that block of the data. -/
theorem memRead_blockBytes {m : Memory} {n b : Nat} {data : List Byte} (hdata : memRead m 0 n = some data)
    (hb : b < n / 8) : memRead m (8 * b) 8 = some (blockBytes data b) := by
  obtain ⟨rfl, hbytes⟩ := (memRead_eq_some m 0 n data).1 hdata
  have hlen : (blockBytes data b).length = 8 := blockBytes_length hb
  refine (memRead_eq_some m (8 * b) 8 _).2 ⟨hlen, fun k hk => ?_⟩
  have hbyte := hbytes (8 * b + k) (by omega)
  rw [Nat.zero_add] at hbyte
  simp only [hbyte, blockBytes, List.getElem_take, List.getElem_drop]

/-- A valid ECB command has whole blocks (44_ecb_framer.md rule R160, V4). -/
theorem len_aligned_of_valid {s : State} (hvalid : ecbValid s = true) : s.len.toNat % 8 = 0 := by
  obtain ⟨_, _, _, haligned, _⟩ := (ecbValid_iff_checks s).1 hvalid
  exact haligned

section validData
variable {s : State} {data : List Byte}

/-- The result of a valid ECB command is as long as its data (44_ecb_framer.md rule R165). -/
theorem ecbProcess_length_of_valid (e : Bool) (hvalid : ecbValid s = true)
    (hdata : memRead s.ibuf 0 s.len.toNat = some data) : (ecbProcess data s.key.val e).length = data.length := by
  have hlen : data.length = s.len.toNat := memRead_length hdata
  have haligned := len_aligned_of_valid hvalid
  rw [ecbProcess_length]
  omega

/-- A successful ECB command leaves `EcbProcess` of its data in `OBUF` from offset 0 (44_ecb_framer.md rule R161). -/
theorem ecbDone_memRead (e : Bool) (hvalid : ecbValid s = true) (hdata : memRead s.ibuf 0 s.len.toNat = some data) :
    memRead (ecbDone e s data).obuf 0 s.len.toNat = some (ecbProcess data s.key.val e) := by
  have hlen : data.length = s.len.toNat := memRead_length hdata
  have hout : (ecbProcess data s.key.val e).length = data.length := ecbProcess_length_of_valid e hvalid hdata
  have haligned := len_aligned_of_valid hvalid
  refine (memRead_eq_some _ _ _ _).2 ⟨hout.trans hlen, fun a ha => ?_⟩
  rw [Nat.zero_add, ecbDone_obuf_read, if_pos (by omega), ← blockBytes_ecbProcess data s.key.val e (by omega),
    getElem?_blockBytes, List.getElem?_eq_getElem ha]

end validData

/-- Settles O37: the predicate is the conjunction of the five checks, and without it the command takes the exception. -/
theorem ecbValidity : Obligations.EcbValidity := by
  refine ⟨fun s => ?valid, fun s i hi hinvalid => ?invalid⟩
  case valid =>
    rw [ecbValid_iff_checks, withinCapacity_iff]
    rfl
  case invalid =>
    rcases hi with rfl | rfl
    · exact ecbCommand_invalid true s hinvalid
    · exact ecbCommand_invalid false s hinvalid

/-- Settles O38: both modes take the exception, which writes `ERR` only. -/
theorem invalidEcbCommandIsAtomic : Obligations.InvalidEcbCommandIsAtomic := by
  intro s i hi hinvalid
  rcases hi with rfl | rfl
  · exact ecbCommand_atomic true hinvalid
  · exact ecbCommand_atomic false hinvalid

/-- Settles O42: any order stores the same byte at each offset, and a canonical buffer is known by its bytes. -/
theorem blockOrderIsFree : Obligations.BlockOrderIsFree := by
  intro K e data obuf order n hwf hperm
  refine memory_ext _ _ (ecbStore_foldl_wf K e data _ _ hwf) (ecbStore_foldl_wf K e data _ _ hwf) fun a => ?_
  rw [ecbStore_foldl_read, ecbStore_foldl_read]
  simp only [hperm.mem_iff]

/-- Settles O43: each output block is the cipher on the bytes of its input block. -/
theorem blocksAreIndependent : Obligations.BlocksAreIndependent := by
  intro data data' key e b b' hb hb' hblock
  rw [blockBytes_ecbProcess data key e hb, blockBytes_ecbProcess data' key e hb', hblock]

/-- Settles O45: each mode undoes the other on whole blocks. -/
theorem bufferRoundTrip : Obligations.BufferRoundTrip :=
  fun data key _ haligned => ⟨ecbProcess_ecbProcess_not data key true haligned,
    ecbProcess_ecbProcess_not data key false haligned⟩

/-! SUPPORT. Each ECB command does what an ECB command is to do in its mode, and the worked example of both. -/

/-- Both ECB commands meet the one specification, each in its mode (44_ecb_framer.md rules R162 and R163). -/
theorem ecbSpec_of_mode (e : Bool) : EcbSpec (if e then .ecbenc else .ecbdec) e := by
  intro s
  rw [exec_ecb_of_mode]
  refine ⟨ecbCommand_atomic e, ecbCommand_unwritten e, fun hpre hkey hall => ?_⟩
  obtain ⟨data, hdata⟩ := Option.isSome_iff_exists.1 ((memRead_zero_isSome _ _).2 hall)
  refine ⟨_, (ecbDone e s data).obuf, ecbCommand_completes e hpre hkey hdata, withErr_withRkv_fields false s.status,
    fun b bs hb hbs => ?_, fun a => ecbDone_obuf_read_above e s data⟩
  obtain rfl : blockBytes data b = bs := Option.some.inj ((memRead_blockBytes hdata hb).symm.trans hbs)
  exact ecbDone_memRead_block e s data hb

/-- The bytes of the known block (44_ecb_framer.md rule R162). -/
def exampleInput : List Byte := [0x01#8, 0x23#8, 0x45#8, 0x67#8, 0x89#8, 0xAB#8, 0xCD#8, 0xEF#8]

/-- The bytes of the known block encrypted (44_ecb_framer.md rule R162). -/
def exampleOutput : List Byte := [0x85#8, 0xE8#8, 0x13#8, 0x54#8, 0x0F#8, 0x0A#8, 0xB4#8, 0x05#8]

/-- The worked example of rule R162, on the bytes of the block. -/
theorem encrypt_exampleInput : cryptBytes (ks 0x133457799BBCDFF1#64) true exampleInput = exampleOutput := by
  have hbits : bytesToBits 8 exampleInput = 0x0123456789ABCDEF#64 := by decide
  rw [cryptBytes, hbits, crypt_example]
  decide

/-- The worked example of rule R163, on the bytes of the block. -/
theorem decrypt_exampleOutput : cryptBytes (ks 0x133457799BBCDFF1#64) false exampleOutput = exampleInput := by
  rw [← encrypt_exampleInput]
  exact cryptBytes_cryptBytes_not _ true rfl

/-- A data buffer of one block is valid whatever the capacity is (44_ecb_framer.md rule R160). -/
theorem preconditions_of_one_block {s : State} (hfctl : s.fctl = 0x0108#16) (hlen : s.len = 8#32) :
    EcbPreconditions s := by
  rw [EcbPreconditions, hfctl, hlen]
  exact ⟨by decide, by decide, by decide, by decide, (withinCapacity_iff 8).1 (withinCapacity_block 8 le_rfl)⟩

/-- An ECB command on one block sets `RKV` and puts the cipher of the block into `OBUF`. -/
theorem ecbCommand_one_block {e : Bool} {s : State} {key : Block} {bs bs' : List Byte}
    (hcrypt : cryptBytes (ks key) e bs = bs') (hkey : s.key = ⟨key, true⟩) (hfctl : s.fctl = 0x0108#16)
    (hlen : s.len = 8#32) (hstatus : s.status = 0#8) (hbs : memRead s.ibuf 0 8 = some bs) :
    ∃ t, ecbCommand e s = .next t ∧ t.status = 0x02#8 ∧ memRead t.obuf 0 8 = some bs' := by
  have hlen8 : s.len.toNat = 8 := congrArg BitVec.toNat hlen
  have hwhole : blockBytes bs 0 = bs := blockBytes_zero_of_length (memRead_length hbs)
  have hout := ecbDone_memRead_block e s bs (b := 0) (by omega)
  rw [hkey, hwhole, hcrypt] at hout
  refine ⟨ecbDone e s bs, ecbCommand_completes e (preconditions_of_one_block hfctl hlen) ?_ (hlen8 ▸ hbs), ?_, hout⟩
  · rw [hkey]
  · exact congrArg (fun v => withErr false (withRkv v)) hstatus

/-- Settles O39: `ECBENC` is the ECB command of mode 1. -/
theorem ecbencEncryptsBuffer : Obligations.EcbencEncryptsBuffer :=
  ⟨rfl, ecbSpec_of_mode true, fun _ => ecbCommand_one_block encrypt_exampleInput⟩

/-- Settles O40: `ECBDEC` is the ECB command of mode 0. -/
theorem ecbdecDecryptsBuffer : Obligations.EcbdecDecryptsBuffer :=
  ⟨rfl, ecbSpec_of_mode false, fun _ => ecbCommand_one_block decrypt_exampleOutput⟩

/-! SUPPORT. A successful ECB command by its data as a whole, and the command of the other mode on the result. -/

/-- Settles O41: the result is read back from the blocks, and the loop ends at `LEN`. -/
theorem ecbOutputIsEcbProcess : Obligations.EcbOutputIsEcbProcess := by
  intro s t e hex hok
  obtain ⟨hvalid, _, data, hdata, rfl⟩ := ecbCommand_success ((exec_ecb_of_mode e s).symm.trans hex) hok
  exact ⟨data, hdata, ecbDone_memRead e hvalid hdata, ecbProcess_length_of_valid e hvalid hdata,
    fun a => ecbDone_obuf_read_above e s data⟩

/-- The ECB commands by the opposite of their mode bit. -/
theorem exec_ecb_of_not_mode (e : Bool) (s : State) : exec (if e then .ecbdec else .ecbenc) s = ecbCommand (!e) s := by
  cases e <;> rfl

/-- The ECB command of the other mode, from any state that holds the result as its data under the same key, gives the data
back with the same round keys (44_ecb_framer.md rules R169 and R170). -/
theorem ecbCommand_undone (e : Bool) {s s' : State} {data : List Byte} (hvalid : ecbValid s = true)
    (hwritten : s.key.written = true) (hdata : memRead s.ibuf 0 s.len.toNat = some data)
    (hkey : s.key = s'.key) (hlen : s.len = s'.len) (hfctl : s.fctl = s'.fctl)
    (hresult : memRead s'.ibuf 0 s.len.toNat = some (ecbProcess data s.key.val e)) :
    ∃ u, ecbCommand (!e) s' = .next u ∧ u.status.getLsbD 0 = false ∧ u.rk = ks s.key.val ∧
      memRead u.obuf 0 s.len.toNat = some data := by
  have hvalid' : ecbValid s' = true := (ecbValid_congr hlen hfctl).symm.trans hvalid
  have haligned : data.length % 8 = 0 := memRead_length hdata ▸ len_aligned_of_valid hvalid
  rw [hlen, hkey] at hresult
  refine ⟨_, (ecbCommand_next (!e) s' _).2 (.inr ⟨hvalid', hkey ▸ hwritten, _, hresult, rfl⟩), withErr_err false _,
    congrArg (fun key : Marked 64 => ks key.val) hkey.symm, ?_⟩
  rw [hlen, ecbDone_memRead (!e) hvalid' hresult, ecbProcess_ecbProcess_not data _ e haligned]

/-- Settles O46: the first command's result is `EcbProcess` of its data, and the other command undoes it. -/
theorem ecbRoundTripOnMachine : Obligations.EcbRoundTripOnMachine := by
  intro s t e output hex hok houtput
  obtain ⟨hvalid, hkey, data, hdata, rfl⟩ := ecbCommand_success ((exec_ecb_of_mode e s).symm.trans hex) hok
  obtain rfl : ecbProcess data s.key.val e = output :=
    Option.some.inj ((ecbDone_memRead e hvalid hdata).symm.trans houtput)
  have hresult := memRead_memWrite (ecbProcess data s.key.val e) s.ibuf 0
  rw [memRead_length houtput] at hresult
  rw [exec_ecb_of_not_mode, hdata]
  exact ecbCommand_undone e hvalid hkey hdata rfl rfl rfl hresult

end Sys2Proof.Machine

/-! SUPPORT. Family 60_exceptions: everything each operation can answer as a fault, said once, and when a command ends in
`InvalidInput`. -/

namespace Sys2Proof.Machine

section faults
variable {s : State} {f : Fault}

/-- An outcome that goes on is no fault. -/
theorem ne_fault_of_next {o : Host.Outcome State Fault Refusal} {t : State} (h : o = .next t) : o ≠ .fault f :=
  h ▸ nofun

/-- `KSCHED` faults exactly for want of `KEY` (41_key_schedule.md rule R106). -/
theorem execKsched_fault : execKsched s = .fault f ↔ f = .unwrittenOperand ∧ s.key.written = false := by
  cases hkey : s.key.written with
  | false => simp [execKsched_unwritten hkey, eq_comm (a := f)]
  | true => exact iff_of_false (ne_fault_of_next ((execKsched_next s _).2 ⟨hkey, rfl⟩)) (by simp)

/-- `ROUNDF` faults exactly for want of `RIN` or `SKIN` (42_round_function.md rule R126). -/
theorem execRoundf_fault :
    execRoundf s = .fault f ↔ f = .unwrittenOperand ∧ (s.rin.written = false ∨ s.skin.written = false) := by
  by_cases h : s.rin.written = false ∨ s.skin.written = false
  · simp [execRoundf_unwritten h, h, eq_comm (a := f)]
  · have ⟨hrin, hskin⟩ : s.rin.written = true ∧ s.skin.written = true := by simpa using h
    exact iff_of_false (ne_fault_of_next ((execRoundf_next s _).2 ⟨hrin, hskin, rfl⟩)) (by simp [h])

/-- A block command faults exactly for want of the round keys, or with them for want of `DIN` (43_block_cipher.md rules
R147 and R148). -/
theorem cryptBlock_fault (e : Bool) : cryptBlock e s = .fault f ↔
    (f = .noSchedule ∧ s.status.getLsbD 1 = false) ∨
      (f = .unwrittenOperand ∧ s.status.getLsbD 1 = true ∧ s.din.written = false) := by
  cases hrkv : s.status.getLsbD 1 with
  | false => simp [cryptBlock_noSchedule hrkv, eq_comm (a := f)]
  | true =>
    cases hdin : s.din.written with
    | false => simp [cryptBlock_unwritten hrkv hdin, eq_comm (a := f)]
    | true => exact iff_of_false (ne_fault_of_next ((cryptBlock_next e s _).2 ⟨hrkv, hdin, rfl⟩)) (by simp)

/-- An ECB command faults exactly when it is valid and wants its key or a byte of its data (44_ecb_framer.md rules R162
and R163). -/
theorem ecbCommand_fault (e : Bool) : ecbCommand e s = .fault f ↔
    f = .unwrittenOperand ∧ EcbPreconditions s ∧ (s.key.written = false ∨ ¬AllWritten s.ibuf s.len.toNat) := by
  by_cases hpre : EcbPreconditions s
  · by_cases hops : s.key.written = true ∧ AllWritten s.ibuf s.len.toNat
    · obtain ⟨hkey, hall⟩ := hops
      obtain ⟨data, hdata⟩ := Option.isSome_iff_exists.1 ((memRead_zero_isSome _ _).2 hall)
      exact iff_of_false (ne_fault_of_next (ecbCommand_completes e hpre hkey hdata)) (by simp [hkey, hall])
    · have hwant := not_and_or.1 hops
      rw [Bool.not_eq_true] at hwant
      simp [ecbCommand_unwritten e hpre hops, hpre, hwant, eq_comm (a := f)]
  · obtain ⟨v, hv, _⟩ := ecbCommand_atomic e hpre
    exact iff_of_false (ne_fault_of_next hv) (by simp [hpre])

/-- The command needs round keys and there are none (43_block_cipher.md rule R150). -/
def LacksSchedule (i : Instr) (s : State) : Prop := (i = .encblk ∨ i = .decblk) ∧ s.status.getLsbD 1 = false

/-- The command gets as far as its operands, and one of them is unwritten (10_state.md rule R37). -/
def LacksOperand (i : Instr) (s : State) : Prop :=
  (i = .ksched ∧ s.key.written = false) ∨
    (i = .roundf ∧ (s.rin.written = false ∨ s.skin.written = false)) ∨
    ((i = .encblk ∨ i = .decblk) ∧ s.status.getLsbD 1 = true ∧ s.din.written = false) ∨
    ((i = .ecbenc ∨ i = .ecbdec) ∧ EcbPreconditions s ∧ (s.key.written = false ∨ ¬AllWritten s.ibuf s.len.toNat))

/-- Everything a command can answer as a fault (60_exceptions.md rule R187). -/
theorem exec_fault {i : Instr} : exec i s = .fault f ↔
    (f = .noSchedule ∧ LacksSchedule i s) ∨ (f = .unwrittenOperand ∧ LacksOperand i s) := by
  cases i with
  | ksched => exact execKsched_fault.trans (by simp [LacksSchedule, LacksOperand])
  | roundf => exact execRoundf_fault.trans (by simp [LacksSchedule, LacksOperand])
  | decblk => exact (cryptBlock_fault false).trans (by simp [LacksSchedule, LacksOperand])
  | encblk => exact (cryptBlock_fault true).trans (by simp [LacksSchedule, LacksOperand])
  | ecbdec => exact (ecbCommand_fault false).trans (by simp [LacksSchedule, LacksOperand])
  | ecbenc => exact (ecbCommand_fault true).trans (by simp [LacksSchedule, LacksOperand])

/-- Issuing a word faults only as its command does (30_encoding.md rule R74). -/
theorem issue_fault {w : BitVec 8} (h : issue w s = .fault f) : ∃ i, decode w = .ok i ∧ exec i s = .fault f := by
  cases hd : decode w with
  | ok i => exact ⟨i, rfl, (issue_of_decode s hd).symm.trans h⟩
  | error e => rw [issue, hd] at h; cases h

/-- A write of a register faults only by issuing a command (10_state.md rule R36). -/
theorem hostWrite_fault {r : RegName} {v : BitVec r.width} (h : hostWrite r v s = .fault f) :
    ∃ i, exec i s = .fault f := by
  cases r with
  | cmd =>
    obtain ⟨i, _, hi⟩ := issue_fault h
    exact ⟨i, hi⟩
  | key | din | rin | skin | len | fctl | status | dout | fout | reserved | rk => cases h

/-- An access faults only by issuing a command, or outside a buffer (log 7). -/
theorem performAccess_fault {a : Access} (h : performAccess a s = .fault f) :
    f = .outsideBuffer ∨ ∃ i, exec i s = .fault f := by
  cases a with
  | wr r v => exact .inr (hostWrite_fault h)
  | rd | reset => cases h
  | wrm b off bs =>
    by_cases hr : InRange off bs.length
    · cases (performAccess_wrm hr).symm.trans h
    · cases (performAccess_wrm_outside hr).symm.trans h
      exact .inl rfl
  | rdm b off n =>
    by_cases hr : InRange off n
    · cases (performAccess_rdm hr).symm.trans h
    · cases (performAccess_rdm_outside hr).symm.trans h
      exact .inl rfl

/-- The faults a step can raise (60_exceptions.md rule R187; `outsideBuffer` is the model's own, log 7). -/
theorem step_fault (h : step s = .fault f) : f = .outsideBuffer ∨ f = .noSchedule ∨ f = .unwrittenOperand := by
  cases hp : s.pending with
  | nil => cases (step_idle s hp).symm.trans h
  | cons a rest =>
    rcases performAccess_fault ((step_pending s a rest hp).symm.trans h) with hout | ⟨i, hi⟩
    · exact .inl hout
    · exact .inr ((exec_fault.1 hi).imp And.left And.left)

end faults

/-- Settles O48: a command lacks its round keys or an operand, and a step faults as its command does or outside a
buffer. -/
theorem faultsExactly : Obligations.FaultsExactly := by
  refine ⟨fun i s => ?schedule, fun i s => ?operand, fun s h => ?overlap⟩
  case schedule => exact exec_fault.trans (by simp [LacksSchedule])
  case operand => exact exec_fault.trans (by simp [LacksOperand])
  case overlap => exact absurd (step_fault h) (by decide)

/-- The ways one of the five conditions fails (44_ecb_framer.md rule R160). -/
theorem not_ecbPreconditions_iff (s : State) : ¬EcbPreconditions s ↔
    s.fctl.getLsbD 8 = false ∨ s.fctl.extractLsb' 0 8 ≠ 8#8 ∨ s.len.toInt ≤ 0 ∨ s.len.toNat % 8 ≠ 0 ∨
      ∃ m, Config.bufMax = some m ∧ m < s.len.toNat := by
  simp only [EcbPreconditions, ← fctlKlen_eq_iff, fctlKlen, not_and_or, Bool.not_eq_true, not_lt, not_forall, not_le,
    exists_prop, ne_eq]
  rfl

/-- `Success` is not `InvalidInput` (10_state.md rule R22). -/
theorem succeed_err_ne_true (s : State) : s.succeed.status.getLsbD 0 ≠ true :=
  fun h => Bool.false_ne_true ((withErr_err false s.status).symm.trans h)

/-- A command that goes on ends in `InvalidInput` exactly when it is an ECB command one of whose conditions fails
(60_exceptions.md rule R181). -/
theorem exec_err {i : Instr} {s t : State} (h : exec i s = .next t) :
    t.status.getLsbD 0 = true ↔ (i = .ecbdec ∨ i = .ecbenc) ∧ ¬EcbPreconditions s := by
  rw [← ecbValid_iff_preconditions]
  rcases exec_next i s t h with ⟨rfl, _, rfl⟩ | ⟨rfl, _, _, rfl⟩ | ⟨e, rfl, _, _, rfl⟩ | ⟨e, rfl, hvalid, rfl⟩ |
    ⟨e, data, rfl, hvalid, _, _, rfl⟩
  case inl | inr.inl => exact iff_of_false (succeed_err_ne_true _) (by simp)
  case inr.inr.inl => exact iff_of_false (succeed_err_ne_true _) (by cases e <;> simp)
  case inr.inr.inr.inl => exact iff_of_true (withErr_err true s.status) ⟨by cases e <;> simp, by simp [hvalid]⟩
  case inr.inr.inr.inr => exact iff_of_false (succeed_err_ne_true _) (by simp [hvalid])

/-- The words of the ECB commands (30_encoding.md rule R72). -/
theorem encode_eq_ecb_iff (i : Instr) : (encode i = 0x08#8 ∨ encode i = 0x09#8) ↔ (i = .ecbdec ∨ i = .ecbenc) := by
  cases i <;> decide

/-- Settles O49: a reserved word raises it, and a command raises it exactly as an invalid ECB command. -/
theorem invalidInputCauses : Obligations.InvalidInputCauses := by
  intro w s t h
  rw [← not_ecbPreconditions_iff]
  by_cases hw : w ∈ legalWords
  · obtain ⟨i, rfl⟩ := (mem_legalWords_iff_encode w).1 hw
    rw [issue_of_decode s (decode_encode i)] at h
    rw [exec_err h, encode_eq_ecb_iff]
    simp [hw]
  · cases (issue_of_not_legal s hw).symm.trans h
    simp [hw, withErr_err]

end Sys2Proof.Machine

/-! SUPPORT. Family 70_reset_and_hazards: the reset event, a new `KEY` under old round keys, and when a command ends in
`Success`. -/

namespace Sys2Proof.Machine

/-- Settles O12: the step performs the reset event, which keeps the host's record and nothing else. -/
theorem resetEvent : Obligations.ResetEvent :=
  fun s rest hp => step_pending s .reset rest hp

/-- A block command goes on with a new `KEY` as it did with the old one, and leaves `RK` alone: `KEY` is not among its
operands (70_reset_and_hazards.md rule R203). -/
theorem cryptBlock_setKey {m : Bool} {s t : State} (v : Block) (h : cryptBlock m s = .next t) :
    cryptBlock m (s.setKey v) = .next (t.setKey v) ∧ t.rk = s.rk := by
  obtain ⟨hrkv, hdin, rfl⟩ := (cryptBlock_next m s t).1 h
  exact ⟨(cryptBlock_next m (s.setKey v) _).2 ⟨hrkv, hdin, rfl⟩, rfl⟩

/-- Settles O36: both block commands are `cryptBlock`, whatever their mode. -/
theorem staleRoundKeys : Obligations.StaleRoundKeys := by
  rintro s t v i (rfl | rfl) hex
  case inl => exact cryptBlock_setKey v hex
  case inr => exact cryptBlock_setKey v hex

section success
variable {s : State}

/-- The outcome is a next state with `ERR` 0, which is `Success` (10_state.md rule R22). -/
def Succeeds (o : Host.Outcome State Fault Refusal) : Prop := ∃ t, o = .next t ∧ t.status.getLsbD 0 = false

/-- A command that ends in `succeed` ends in `Success`. -/
theorem succeeds_of_next_succeed {o : Host.Outcome State Fault Refusal} (h : o = .next s.succeed) : Succeeds o :=
  ⟨_, h, withErr_err false s.status⟩

/-- `KSCHED` succeeds exactly with its key. -/
theorem execKsched_succeeds : Succeeds (execKsched s) ↔ s.key.written = true := by
  constructor
  · rintro ⟨t, hex, _⟩
    exact ((execKsched_next s t).1 hex).1
  · exact fun hkey => succeeds_of_next_succeed ((execKsched_next s _).2 ⟨hkey, rfl⟩)

/-- `ROUNDF` succeeds exactly with its two operands. -/
theorem execRoundf_succeeds : Succeeds (execRoundf s) ↔ s.rin.written = true ∧ s.skin.written = true := by
  constructor
  · rintro ⟨t, hex, _⟩
    obtain ⟨hrin, hskin, _⟩ := (execRoundf_next s t).1 hex
    exact ⟨hrin, hskin⟩
  · exact fun ⟨hrin, hskin⟩ => succeeds_of_next_succeed ((execRoundf_next s _).2 ⟨hrin, hskin, rfl⟩)

/-- A block command succeeds exactly with the round keys and its block. -/
theorem cryptBlock_succeeds (m : Bool) :
    Succeeds (cryptBlock m s) ↔ s.status.getLsbD 1 = true ∧ s.din.written = true := by
  constructor
  · rintro ⟨t, hex, _⟩
    obtain ⟨hrkv, hdin, _⟩ := (cryptBlock_next m s t).1 hex
    exact ⟨hrkv, hdin⟩
  · exact fun ⟨hrkv, hdin⟩ => succeeds_of_next_succeed ((cryptBlock_next m s _).2 ⟨hrkv, hdin, rfl⟩)

/-- An ECB command succeeds exactly when it is valid and has its key and all of its data; an invalid one goes on too, but
with `ERR` 1. -/
theorem ecbCommand_succeeds (e : Bool) : Succeeds (ecbCommand e s) ↔
    EcbPreconditions s ∧ s.key.written = true ∧ AllWritten s.ibuf s.len.toNat := by
  rw [← ecbValid_iff_preconditions, ← memRead_zero_isSome, Option.isSome_iff_exists]
  constructor
  · rintro ⟨t, hex, hok⟩
    obtain ⟨hvalid, hkey, data, hdata, _⟩ := ecbCommand_success hex hok
    exact ⟨hvalid, hkey, data, hdata⟩
  · rintro ⟨hvalid, hkey, data, hdata⟩
    exact succeeds_of_next_succeed ((ecbCommand_next e s _).2 (.inr ⟨hvalid, hkey, data, hdata, rfl⟩))

end success

/-- Settles O47: command by command, what `Success` takes is what the host was to do before. -/
theorem readyCommandsSucceed : Obligations.ReadyCommandsSucceed := by
  intro i s
  cases i with
  | ksched => exact execKsched_succeeds.symm
  | roundf => exact execRoundf_succeeds.symm
  | decblk => exact (cryptBlock_succeeds false).symm
  | encblk => exact (cryptBlock_succeeds true).symm
  | ecbdec => exact (ecbCommand_succeeds false).symm
  | ecbenc => exact (ecbCommand_succeeds true).symm

end Sys2Proof.Machine
